-- ==== Sys2Proof/Word.lean ====
section
/-! DEFINITION. The bit vectors of the block: `u32` words (spec R7, R50), bytes (R32), command words (R55). -/

namespace Sys2Proof

/-- A `u32`: a storage word of `BUF` or a cell of `OUT` (R7, R50, R52). Bit 0 is the least significant. -/
abbrev Word := BitVec 32

/-- A byte of the byte view of a memory (R32). -/
abbrev Byte := BitVec 8

/-- The 64-bit command word `CMD` (R55). -/
abbrev CmdWord := BitVec 64

end Sys2Proof
end

