-- ==== Sys2Proof/Config.lean ====
section
/-! DEFINITION. The implementation parameters of rule R6, each a named constant, and the one free value. -/

namespace Sys2Proof.Config

/-- `WORD`: bits per storage word (R6). -/
abbrev wordBits : Nat := 32

/-- `W_MIN`: the least legal bit width (R6). -/
abbrev widthMin : Nat := 1

/-- `W_MAX`: the greatest legal bit width (R6; 32 is out of range, C2). -/
abbrev widthMax : Nat := 31

/-- `BATCH`: fields per batch (R6, D4). A general `B` would need `32 ∣ B * w` (R82). -/
abbrev batch : Nat := 32

/-- `CELL`: bits per output cell (R6, D5). -/
abbrev cellBits : Nat := 32

/-- `W_FIELD`: bits of the `W` operand (R6, D7). -/
abbrev widthFieldBits : Nat := 8

/-- `ARG_BITS`: bits of the `ARG` operand (R6, D7). -/
abbrev argBits : Nat := 32

/-- `LEN_BITS`: bits of `BUF_LEN` and `OUT_CAP` (R6, D7). -/
abbrev lenBits : Nat := 32

/-- How many unit indices each address space can have: an index is below a 32-bit length (R12, R14, R30). -/
abbrev maxUnits : Nat := 2 ^ 32 - 1

/-- FREE VALUE. What the byte at a byte address of `BUF` that nothing has written reads as, at the draw with
the given number: the location "has no value" (R24, D22, U13). Log entry 3 (DESIGN CHOICE, safe). -/
opaque freeByte : Nat → Nat → Byte

end Sys2Proof.Config
end

