-- ==== Sys2Proof/Syntax.lean ====
section
/-! DEFINITION. The four commands (R56), each with its operands as the naturals the rules compute with (R57). -/

namespace Sys2Proof

/-- A command: one constructor per row of the opcode table (R56). Operands are naturals, "no scaling or offset"
(R57); that they fit their fields is `Instr.WellFormed`. -/
inductive Instr where
  /-- `LAYOUT w` (R81). -/
  | layout (w : Nat)
  /-- `UNPACK_ONE w, i` (R123). -/
  | unpackOne (w i : Nat)
  /-- `UNPACK_BATCH w, k` (R113). -/
  | unpackBatch (w k : Nat)
  /-- `DECODE w, n` (R130). -/
  | decode (w n : Nat)
deriving DecidableEq, Repr

/-- The operation code (R56). -/
def Instr.op : Instr → Nat
  | .layout _ => 1
  | .unpackOne _ _ => 2
  | .unpackBatch _ _ => 3
  | .decode _ _ => 4

/-- The `W` operand: the bit width (R55). -/
def Instr.width : Instr → Nat
  | .layout w => w
  | .unpackOne w _ => w
  | .unpackBatch w _ => w
  | .decode w _ => w

/-- The `ARG` operand: field index, batch number or field count; 0 for LAYOUT (R56). -/
def Instr.arg : Instr → Nat
  | .layout _ => 0
  | .unpackOne _ i => i
  | .unpackBatch _ k => k
  | .decode _ n => n

end Sys2Proof
end

