-- ==== Sys2Proof/WellFormed.lean ====
section
/-! DEFINITION. When a command can be written as a command word: "`w` must fit 8 bits and `i`, `k`, `n` 32 bits,
or the line cannot be assembled" (R61). An illegal width is no matter of form (R59). -/

namespace Sys2Proof

/-- The `W` operand fits its 8-bit field (R57, R61). -/
abbrev Instr.widthFits (i : Instr) : Prop := i.width < 2 ^ Config.widthFieldBits

/-- The `ARG` operand fits its 32-bit field (R57, R61). -/
abbrev Instr.argFits (i : Instr) : Prop := i.arg < 2 ^ Config.argBits

/-- The command has a command word (R61). -/
abbrev Instr.WellFormed (i : Instr) : Prop := i.widthFits ∧ i.argFits

end Sys2Proof
end

