-- ==== Sys2Proof/Decode.lean ====
section
/-! DEFINITION. The command decoder, total on every 64-bit word and rejecting by name (R55 to R58); the encoder,
written from the same tables; the assembler of the textual syntax (R61). -/

namespace Sys2Proof

/-- Why a command word is illegal (R58). -/
inductive DecodeReject where
  /-- `OP` is `0x0` or in `0x5` to `0xF`. -/
  | reservedOp
  /-- `RSV` is not 0. -/
  | reservedBits
  /-- `OP` is LAYOUT and `ARG` is not 0. -/
  | layoutArg
deriving DecidableEq, Repr

/-- `OP = CMD[63:60]` (R55). -/
def CmdWord.opField (cmd : CmdWord) : BitVec 4 := cmd.extractLsb' 60 4

/-- `RSV = CMD[59:40]` (R55). -/
def CmdWord.rsvField (cmd : CmdWord) : BitVec 20 := cmd.extractLsb' 40 20

/-- `W = CMD[39:32]` (R55, R57). -/
def CmdWord.widthField (cmd : CmdWord) : BitVec 8 := cmd.extractLsb' 32 8

/-- `ARG = CMD[31:0]` (R55, R57). -/
def CmdWord.argField (cmd : CmdWord) : BitVec 32 := cmd.extractLsb' 0 32

/-- The decoder: the command a word is, or why it is illegal (R56, R58). An illegal width decodes (R59). -/
def decodeWord (cmd : CmdWord) : Except DecodeReject Instr :=
  let w := (CmdWord.widthField cmd).toNat
  let arg := (CmdWord.argField cmd).toNat
  if CmdWord.rsvField cmd ≠ 0 then .error .reservedBits
  else if CmdWord.opField cmd = 1 then
    if arg = 0 then .ok (.layout w) else .error .layoutArg
  else if CmdWord.opField cmd = 2 then .ok (.unpackOne w arg)
  else if CmdWord.opField cmd = 3 then .ok (.unpackBatch w arg)
  else if CmdWord.opField cmd = 4 then .ok (.decode w arg)
  else .error .reservedOp

/-- The encoder: `CMD = OP * 2^60 + RSV * 2^40 + W * 2^32 + ARG` with `RSV = 0` (R55). -/
def encode (i : Instr) : CmdWord :=
  BitVec.ofNat 64 (i.op * 2 ^ 60 + 0 * 2 ^ 40 + i.width * 2 ^ 32 + i.arg)

/-- The `match` column of R56: the fixed bits of the command's row. -/
def Instr.matchWord : Instr → CmdWord
  | .layout _ => 0x1000000000000000
  | .unpackOne _ _ => 0x2000000000000000
  | .unpackBatch _ _ => 0x3000000000000000
  | .decode _ _ => 0x4000000000000000

/-- The `mask` column of R56: which bits of the command's row are fixed. -/
def Instr.maskWord : Instr → CmdWord
  | .layout _ => 0xFFFFFF00FFFFFFFF
  | .unpackOne _ _ => 0xFFFFFF0000000000
  | .unpackBatch _ _ => 0xFFFFFF0000000000
  | .decode _ _ => 0xFFFFFF0000000000

/-- The command word of a row of `nbits` bits: the row's bits are `w`, bit 0 the least significant; every bit
above `nbits` is 0. A command has one 64-bit word and no byte order (R55; log entry 15). -/
def tableWord (nbits w : Nat) : CmdWord := BitVec.ofNat 64 (w % 2 ^ nbits)

/-- What the decoder reads from a row's bits. -/
def decodeTableWord (nbits w : Nat) : Option Instr :=
  match decodeWord (tableWord nbits w) with
  | .ok i => some i
  | .error _ => none

/-! The textual syntax of R61: "a mnemonic and decimal or `0x` hexadecimal operands, one command per line, `;`
starting a comment". Blanks, letter case and empty lines: log entry 16. -/

/-- The command word of a command whose operands fit; otherwise the line cannot be assembled (R61). -/
def assemble (i : Instr) : Option CmdWord := if i.WellFormed then some (encode i) else none

/-- The pieces of a line up to its comment: a comma is a piece of its own, blanks part pieces. `acc` holds the
piece begun, last character first. -/
def asmTokens : List Char → List Char → List (List Char)
  | [], acc => if acc.isEmpty then [] else [acc.reverse]
  | c :: cs, acc =>
    let done := if acc.isEmpty then [] else [acc.reverse]
    if c = ';' then done
    else if c = ' ' ∨ c = '\t' then done ++ asmTokens cs []
    else if c = ',' then done ++ [','] :: asmTokens cs []
    else asmTokens cs (c :: acc)

/-- The value of a digit in the given base. -/
def asmDigit (base : Nat) (c : Char) : Option Nat :=
  let v :=
    if '0' ≤ c ∧ c ≤ '9' then some (c.toNat - '0'.toNat)
    else if 'a' ≤ c ∧ c ≤ 'f' then some (c.toNat - 'a'.toNat + 10)
    else if 'A' ≤ c ∧ c ≤ 'F' then some (c.toNat - 'A'.toNat + 10)
    else none
  v.filter (· < base)

/-- A row of digits, the first the most significant. -/
def asmDigits (base : Nat) (cs : List Char) : Option Nat :=
  if cs.isEmpty then none
  else cs.foldl (fun v c => v.bind fun v => (asmDigit base c).map fun d => v * base + d) (some 0)

/-- A decimal or `0x` hexadecimal operand (R61). -/
def asmNumber : List Char → Option Nat
  | '0' :: 'x' :: cs => asmDigits 16 cs
  | cs => asmDigits 10 cs

/-- A line of the textual syntax: `none` when it cannot be assembled, `some none` when it holds no command,
otherwise the command's word (R61). -/
def assembleLine (line : String) : Option (Option CmdWord) :=
  match asmTokens line.toList [] with
  | [] => some none
  | [m, w] =>
    if m = "LAYOUT".toList then (asmNumber w).bind fun w => (assemble (.layout w)).map some else none
  | [m, w, [','], a] =>
    (asmNumber w).bind fun w => (asmNumber a).bind fun a =>
      if m = "UNPACK_ONE".toList then (assemble (.unpackOne w a)).map some
      else if m = "UNPACK_BATCH".toList then (assemble (.unpackBatch w a)).map some
      else if m = "DECODE".toList then (assemble (.decode w a)).map some
      else none
  | _ => none

end Sys2Proof
end

