-- ==== Sys2Proof/Machine/State.lean ====
section
/-! DEFINITION. The architectural state of one instance (R10), what the host does to it, why a step can stop,
and the state after reset (R24, R160). -/

namespace Sys2Proof.Machine

/-- A memory: byte address and byte, addresses strictly rising (`Memory.wf`). An address that is not listed has
no value (R24, D22); so no listed entry equals what an unlisted address reads as. Log entry 5. -/
abbrev Memory := List Host.Cell

/-- The codes of `STATUS` (R60); codes 5, 6, 7 are never produced (R15, U15). -/
inductive Status where
  /-- 0: the command did all its rule says. -/
  | ok
  /-- 1: `W` outside `[1, 31]` (R141). -/
  | invalidWidth
  /-- 2: `BUF` has fewer bits than the command needs (R142). -/
  | bufferTooShort
  /-- 3: `OUT` has fewer cells than the command needs (R143). -/
  | outputTooShort
  /-- 4: the command word is illegal (R144). -/
  | illegalCommand
deriving DecidableEq, Repr

/-- The plan fields only a straddling lane has (R17, R53): the two words and the two part widths. -/
structure LaneParts where
  w0 : BitVec 5
  w1 : BitVec 5
  hb : BitVec 5
  lb : BitVec 5
deriving DecidableEq, Repr

/-- One lane of `PLAN` (R17). `parts` is present exactly when `PLAN.straddle[l] = 1`; R17 asks for an option. -/
structure LanePlan where
  word : BitVec 5
  shift : BitVec 5
  parts : Option LaneParts
deriving DecidableEq, Repr

/-- A `LayoutPlan` with the field widths of R17 (R53, R54). -/
structure LayoutPlan where
  w : BitVec 5
  batch : BitVec 6
  wordsPerBatch : BitVec 5
  lanes : Vector LanePlan 32
deriving DecidableEq, Repr

/-- One thing the host does, in the order it does them (R162, R165). Log entry 6. -/
inductive HostEvent where
  /-- Issue a command word (R55, R165). -/
  | command (cmd : CmdWord)
  /-- `BUF[j], BUF[j+1], … <- ws`, no command in flight (R10, R61, R162). -/
  | writeBuf (j : Nat) (ws : List Word)
  /-- `BUF` given as a byte slice from byte address 0 (R32, R35). -/
  | loadBytes (bs : List Byte)
  /-- `BUF_LEN <- v` (R12, R162). -/
  | setBufLen (v : BitVec 32)
  /-- `OUT[c], OUT[c+1], … <- vs`, no command in flight (R10). -/
  | writeOut (c : Nat) (vs : List Word)
  /-- `OUT_CAP <- v` (R14, R162). -/
  | setOutCap (v : BitVec 32)
  /-- Reset with no command in flight (R160). -/
  | reset
  /-- Reset while this command is in flight (R161). -/
  | resetDuring (cmd : CmdWord)
  /-- The host touches what R164 forbids while this command is in flight. -/
  | touchDuring (cmd : CmdWord)
  /-- The host issues this command with a descriptor that overstates the storage (R163), and the command
  reaches the part that is not there. -/
  | overstated (cmd : CmdWord)
deriving DecidableEq, Repr

/-- The machine's state: the tuple of R10, then two fields of the model's own (`port`, `draw`). -/
structure State where
  /-- `BUF`, word `j` in the four bytes from `4 * j`, big-endian (R11, R32). -/
  buf : Memory
  /-- `BUF_LEN` (R12). -/
  bufLen : BitVec 32
  /-- `OUT`, cell `c` in the four bytes from `4 * c` (R13; byte order: log entry 5). -/
  out : Memory
  /-- `OUT_CAP` (R14). -/
  outCap : BitVec 32
  /-- `STATUS` (R15). -/
  status : Status
  /-- `RESULT` (R16). -/
  result : Word
  /-- `PLAN` (R17). -/
  plan : LayoutPlan
  /-- MODEL'S OWN: what the host does next, first first (R165). Log entry 6. -/
  port : List HostEvent
  /-- MODEL'S OWN: numbers the draws of free values. Log entry 4. -/
  draw : Nat
deriving DecidableEq, Repr

/-- Why the machine stops with a fault. No command does (R140): every error of a command is a next state. -/
inductive Fault where
  /-- Raised by a host write of `BUF` or `OUT` beyond the index space (R30: an index is below a 32-bit length).
  Safe: the model stops where the spec gives no meaning. Log entry 13. -/
  | hostAddress
deriving DecidableEq, Repr

/-- Why the model gives a step no meaning. -/
inductive Refusal where
  /-- Raised by `exec` for a command without a meaning yet; none is left. Safe. -/
  | notModelled (mnemonic : String)
  /-- Raised by a host that breaks R164 (U9: "no meaning", "Never model it as some particular interleaving").
  Safe. Log entry 11. -/
  | hostTouchedDuringCommand
  /-- Raised by a host whose descriptors overstate the storage (R163, U4). Safe. Log entry 11. -/
  | descriptorOverstated
  /-- Raised by a byte slice whose length is not a multiple of 4, which the host has to pad (R35, D19, N8).
  Safe. Log entry 14. -/
  | partialWord
deriving DecidableEq, Repr

/-- What `PLAN` holds after reset. DESIGN CHOICE (R24 gives no value): every field 0, no lane straddles.
Log entry 2. -/
def LayoutPlan.reset : LayoutPlan :=
  { w := 0, batch := 0, wordsPerBatch := 0,
    lanes := Vector.ofFn fun _ => { word := 0, shift := 0, parts := none } }

/-- The machine right after reset (R24, R160). `result` and `plan`: DESIGN CHOICE, log entries 1 and 2;
`draw`: DESIGN CHOICE, log entry 4. -/
def State.reset : State :=
  { buf := [], bufLen := 0, out := [], outCap := 0, status := .ok, result := 0, plan := LayoutPlan.reset,
    port := [], draw := 0 }

end Sys2Proof.Machine
end

