-- ==== Sys2Proof/Machine/Ops.lean ====
section
/-! DEFINITION. The named operations on memory and registers: byte order (R32), the two accesses `MemRead` and
`MemWrite` (R8, R36), the register writes (R8), and error entry (R146). -/

namespace Sys2Proof.Machine

/-! Memory. -/

/-- The canonical form: addresses strictly rise. -/
abbrev Memory.wf (m : Memory) : Prop := m.Pairwise fun a b => a.1 < b.1

/-- Every listed address is below `n`. -/
abbrev Memory.below (n : Nat) (m : Memory) : Prop := ∀ c ∈ m, c.1 < n

/-- The byte at an address; none where nothing has been written. -/
def Memory.read? (m : Memory) (a : Nat) : Option Byte := m.lookup a

/-- Store consecutive bytes from address `a`. -/
def Memory.write (m : Memory) (a : Nat) (bs : List Byte) : Memory :=
  m.filter (fun c => c.1 < a) ++ ((List.range' a bs.length).zip bs ++ m.filter fun c => a + bs.length ≤ c.1)

/-- Forget the bytes at addresses `lo ≤ a < hi`: they have no value any more (R161, U14). -/
def Memory.erase (m : Memory) (lo hi : Nat) : Memory :=
  m.filter fun c => c.1 < lo || hi ≤ c.1

/-! Byte order: the byte at the lowest address holds the most significant bits (R32). -/

/-- The word of four bytes, `byte[4j]` first (R32). -/
def wordOfBytes (b0 b1 b2 b3 : Byte) : Word := b0 ++ b1 ++ b2 ++ b3

/-- The four bytes of a word, `byte[4j]` first (R32). -/
def bytesOfWord (v : Word) : List Byte :=
  [v.extractLsb' 24 8, v.extractLsb' 16 8, v.extractLsb' 8 8, v.extractLsb' 0 8]

/-- The bytes of consecutive words. -/
def bytesOfWords (vs : List Word) : List Byte := vs.flatMap bytesOfWord

/-- The word at a word index; none where one of its bytes has no value. -/
def Memory.readWord? (m : Memory) (j : Nat) : Option Word :=
  match m.read? (4 * j), m.read? (4 * j + 1), m.read? (4 * j + 2), m.read? (4 * j + 3) with
  | some b0, some b1, some b2, some b3 => some (wordOfBytes b0 b1 b2 b3)
  | _, _, _, _ => none

/-! The block's accesses. -/

/-- A byte of `BUF` as the block sees it; a byte nothing has written is a free value (R24, U13; log entry 3). -/
def State.bufByte (s : State) (a : Nat) : Byte := (s.buf.read? a).getD (Config.freeByte s.draw a)

/-- `MemRead(j, 1)`: one storage word of `BUF` (R8, R36). Reading it again in one command gives the same (R38). -/
def State.memRead (s : State) (j : Nat) : Word :=
  wordOfBytes (s.bufByte (4 * j)) (s.bufByte (4 * j + 1)) (s.bufByte (4 * j + 2)) (s.bufByte (4 * j + 3))

/-- `MemWrite(c, 1, v)` for consecutive cells from `c` (R8, R36, R39). -/
def State.memWrite (s : State) (c : Nat) (vs : List Word) : State :=
  { s with out := s.out.write (4 * c) (bytesOfWords vs) }

/-! Register writes. -/

/-- `RESULT <- v` (R16). -/
def State.setResult (s : State) (v : Word) : State := { s with result := v }

/-- `PLAN <- p` (R17). -/
def State.setPlan (s : State) (p : LayoutPlan) : State := { s with plan := p }

/-- `STATUS <- 0` at the end of a command that did all its rule says (R15, R60). -/
def State.complete (s : State) : State := { s with status := .ok }

/-- `raise E`, the block's whole error entry: `STATUS <- code(E)`, nothing else changes, nothing is saved and
control goes nowhere (R8, R146). There is no return from it (R148). -/
def State.raise (s : State) (e : Status) : State := { s with status := e }

/-- How every command runs: its checks come first (`c` is what they found), and it either does its effect and ends
with `OK`, or raises the error with no part of the effect done (R131, R147). -/
def checked (c : Status) (effect : State → State) (s : State) : Host.Outcome State Fault Refusal :=
  match c with
  | .ok => .next (effect s).complete
  | e => .next (s.raise e)

/-- Take the first thing off the port: what is left of it is `rest`, and the next draw begins. -/
def State.accept (s : State) (rest : List HostEvent) : State := { s with port := rest, draw := s.draw + 1 }

/-! What the host reads (R10, R24, R54): observers, not steps. -/

/-- `BUF[j]`; none beyond `BUF_LEN` or where nothing has been written. -/
def State.bufWord? (s : State) (j : Nat) : Option Word :=
  if j < s.bufLen.toNat then s.buf.readWord? j else none

/-- `OUT[c]`; none beyond `OUT_CAP` or where nothing has been written. -/
def State.outCell? (s : State) (c : Nat) : Option Word :=
  if c < s.outCap.toNat then s.out.readWord? c else none

/-- `PLAN.straddle[l]` (R17). -/
def LanePlan.straddle (p : LanePlan) : Bool := p.parts.isSome

/-- `PLAN.w0[l]`: 0 when the lane does not straddle (R54). -/
def LanePlan.w0 (p : LanePlan) : BitVec 5 := (p.parts.map LaneParts.w0).getD 0

/-- `PLAN.w1[l]`: 0 when the lane does not straddle (R54). -/
def LanePlan.w1 (p : LanePlan) : BitVec 5 := (p.parts.map LaneParts.w1).getD 0

/-- `PLAN.hb[l]`: 0 when the lane does not straddle (R54). -/
def LanePlan.hb (p : LanePlan) : BitVec 5 := (p.parts.map LaneParts.hb).getD 0

/-- `PLAN.lb[l]`: 0 when the lane does not straddle (R54). -/
def LanePlan.lb (p : LanePlan) : BitVec 5 := (p.parts.map LaneParts.lb).getD 0

end Sys2Proof.Machine
end

