-- ==== Sys2Proof/Machine/Operands.lean ====
section
/-! DEFINITION. The `offset_calculator` (R70): where a field lies, whether it straddles, and the plan of a batch.
All arithmetic is exact (R57, R95). Also the target cells of a command (R37, R161). -/

namespace Sys2Proof.Machine

/-- `OFFSET(w, i)`: the word that holds the field's first bit, and how many bits of it come before (R71). -/
def offset (w i : Nat) : Nat × Nat := (i * w / 32, i * w % 32)

/-- `STRADDLES(w, i)`: the field's first and last bits lie in different words (R72). -/
def straddles (w i : Nat) : Bool := decide (i * w / 32 ≠ ((i + 1) * w - 1) / 32)

/-- The shift of a field that does not straddle (R74). -/
def fieldShift (w i : Nat) : Nat := 32 - (offset w i).2 - w

/-- `hb`: the bits of a straddling field in its first word (R75). -/
def highBits (w i : Nat) : Nat := 32 - (offset w i).2

/-- `lb`: the bits of a straddling field in its second word (R75). -/
def lowBits (w i : Nat) : Nat := (offset w i).2 + w - 32

/-- `ceil(B * w / 32)`, the storage words of one batch (R76). -/
def wordsPerBatch (w : Nat) : Nat := (Config.batch * w + 31) / 32

/-- One lane of `layout(w, 32)` (R77). A straddling lane's `word` and `shift` follow D12: the word that holds
the low bit. -/
def lanePlan (w l : Nat) : LanePlan :=
  let j := (offset w l).1
  if (offset w l).2 + w ≤ 32 then
    { word := BitVec.ofNat 5 j, shift := BitVec.ofNat 5 (fieldShift w l), parts := none }
  else
    { word := BitVec.ofNat 5 (j + 1), shift := BitVec.ofNat 5 (32 - lowBits w l),
      parts := some
        { w0 := BitVec.ofNat 5 j, w1 := BitVec.ofNat 5 (j + 1),
          hb := BitVec.ofNat 5 (highBits w l), lb := BitVec.ofNat 5 (lowBits w l) } }

/-- `layout(w, 32)` (R77): a pure function of `w` (R80), so there is no plan cache in `State` (R21). -/
def layout (w : Nat) : LayoutPlan :=
  { w := BitVec.ofNat 5 w, batch := BitVec.ofNat 6 Config.batch,
    wordsPerBatch := BitVec.ofNat 5 (wordsPerBatch w), lanes := Vector.ofFn fun l => lanePlan w l.val }

/-- The first cell a command can write and the first after it (R37, R161): DECODE `[0, n)`, UNPACK_BATCH
`[32k, 32k + 32)`, the others none. -/
def Instr.target : Instr → Nat × Nat
  | .layout _ => (0, 0)
  | .unpackOne _ _ => (0, 0)
  | .unpackBatch _ k => (Config.batch * k, Config.batch * k + Config.batch)
  | .decode _ n => (0, n)

end Sys2Proof.Machine
end

