-- ==== Sys2Proof/Machine/Flags.lean ====
section
/-! DEFINITION. `STATUS`, the block's only flag (R15, R20): its codes (R60) and the checks that decide it, in the
order of R145. -/

namespace Sys2Proof.Machine

/-- The 3-bit code of a status (R15, R60). -/
def Status.code : Status → BitVec 3
  | .ok => 0
  | .invalidWidth => 1
  | .bufferTooShort => 2
  | .outputTooShort => 3
  | .illegalCommand => 4

/-- `w` is in `[1, 31]` (R6, R141). -/
abbrev legalWidth (w : Nat) : Prop := Config.widthMin ≤ w ∧ w ≤ Config.widthMax

/-- LAYOUT checks the width only (R81). -/
def layoutCheck (w : Nat) : Status := if ¬ legalWidth w then .invalidWidth else .ok

/-- UNPACK_ONE checks the width, then that the field lies in `BUF` (R123, R142). -/
def unpackOneCheck (w i : Nat) (s : State) : Status :=
  if ¬ legalWidth w then .invalidWidth
  else if (i + 1) * w > 32 * s.bufLen.toNat then .bufferTooShort
  else .ok

/-- UNPACK_BATCH checks the width, then the batch's words, then its cells (R113, R142, R143). -/
def unpackBatchCheck (w k : Nat) (s : State) : Status :=
  if ¬ legalWidth w then .invalidWidth
  else if (k + 1) * w > s.bufLen.toNat then .bufferTooShort
  else if (k + 1) * Config.batch > s.outCap.toNat then .outputTooShort
  else .ok

/-- DECODE checks the width, then the bits, then the cells, all before the first access (R130, R131). -/
def decodeCheck (w n : Nat) (s : State) : Status :=
  if ¬ legalWidth w then .invalidWidth
  else if n * w > 32 * s.bufLen.toNat then .bufferTooShort
  else if n > s.outCap.toNat then .outputTooShort
  else .ok

end Sys2Proof.Machine
end

