-- ==== Sys2Proof/Machine/Datapath.lean ====
section
/-! DEFINITION. The `shift_mask_merge_unit` (R90) and the `boundary_straddler` (R100): arithmetic on words that
other rules have fetched. `words` is the memory view an operation is given. -/

namespace Sys2Proof.Machine

/-- `MASK(m)`: `m` ones at the low end (R91). -/
def mask (m : Nat) : Word := (1#32 <<< m) - 1#32

/-- `EXTRACT(x, sh, m)`: logical right shift, then mask (R92). -/
def extract (x : Word) (sh m : Nat) : Word := (x >>> sh) &&& mask m

/-- `MERGE(hi, lo, lb)`: the high part above the low part (R93). -/
def merge (hi lo : Word) (lb : Nat) : Word := (hi <<< lb) ||| lo

/-- `FIXUP(words, w0, w1, hb, lb)`: the low end of word `w0`, unshifted (C7), then the high end of word `w1`
(R101). -/
def fixup (words : Nat → Word) (w0 w1 hb lb : Nat) : Word :=
  merge (extract (words w0) 0 hb) (extract (words w1) (32 - lb) lb) lb

/-- `BULK(words, plan)`: the lane-parallel pass; what it leaves in a straddling lane is scratch (R94). -/
def bulk (words : Nat → Word) (plan : LayoutPlan) : Vector Word 32 :=
  Vector.ofFn fun l => extract (words plan.lanes[l].word.toNat) plan.lanes[l].shift.toNat plan.w.toNat

/-- `unpack_batch(words, plan)`: the bulk pass, then the fix-up of every lane of the straddle set (R103, R110). -/
def unpackBatch (words : Nat → Word) (plan : LayoutPlan) : Vector Word 32 :=
  Vector.ofFn fun l =>
    match plan.lanes[l].parts with
    | none => (bulk words plan)[l]
    | some p => fixup words p.w0.toNat p.w1.toNat p.hb.toNat p.lb.toNat

/-- `unpack_one(buf, w, i)`: one word when the field lies in one, two when it straddles (R121, R125). -/
def unpackOne (buf : Nat → Word) (w i : Nat) : Word :=
  let j := (offset w i).1
  if (offset w i).2 + w ≤ 32 then extract (buf j) (fieldShift w i) w
  else fixup buf j (j + 1) (highBits w i) (lowBits w i)

end Sys2Proof.Machine
end

