-- ==== Sys2Proof/Machine/Batch.lean ====
section
/-! DEFINITION. The command UNPACK_BATCH. -/

namespace Sys2Proof.Machine

/-- The 32 values of batch `k`: `unpack_batch` of its `w` words, word `m` being `BUF[k*w + m]` (R37, R113). -/
def State.batchValues (s : State) (w k : Nat) : List Word :=
  (unpackBatch (fun m => s.memRead (k * w + m)) (layout w)).toList

/-- UNPACK_BATCH (R113): `OUT[32k .. 32k + 32) <-` the values of batch `k`. -/
def execUnpackBatch (w k : Nat) (s : State) : Host.Outcome State Fault Refusal :=
  checked (unpackBatchCheck w k s) (fun s => s.memWrite (Config.batch * k) (s.batchValues w k)) s

end Sys2Proof.Machine
end

