-- ==== Sys2Proof/Machine/Buffer.lean ====
section
/-! DEFINITION. The command DECODE. -/

namespace Sys2Proof.Machine

/-- The values of fields `0` to `n - 1`: the whole batches in order, then the remainder by the scalar path
(R130, R132). -/
def State.decodeValues (s : State) (w n : Nat) : List Word :=
  (List.range (n / Config.batch)).flatMap (s.batchValues w) ++
    (List.range' (Config.batch * (n / Config.batch)) (n % Config.batch)).map (unpackOne s.memRead w)

/-- DECODE (R130): `OUT[0 .. n) <-` the fields' values. -/
def execDecode (w n : Nat) (s : State) : Host.Outcome State Fault Refusal :=
  checked (decodeCheck w n s) (fun s => s.memWrite 0 (s.decodeValues w n)) s

end Sys2Proof.Machine
end

