-- ==== Sys2Proof/Machine/Layout.lean ====
section
/-! DEFINITION. The command LAYOUT. -/

namespace Sys2Proof.Machine

/-- LAYOUT (R81): `PLAN <- layout(w, 32)`. -/
def execLayout (w : Nat) (s : State) : Host.Outcome State Fault Refusal :=
  checked (layoutCheck w) (fun s => s.setPlan (layout w)) s

end Sys2Proof.Machine
end

