-- ==== Sys2Proof/Machine/Scalar.lean ====
section
/-! DEFINITION. The command UNPACK_ONE. -/

namespace Sys2Proof.Machine

/-- UNPACK_ONE (R123): `RESULT <- zext_32(unpack_one(BUF, w, i))`. -/
def execUnpackOne (w i : Nat) (s : State) : Host.Outcome State Fault Refusal :=
  checked (unpackOneCheck w i s) (fun s => s.setResult (unpackOne s.memRead w i)) s

end Sys2Proof.Machine
end

