-- ==== Sys2Proof/Machine/Dispatch.lean ====
section
/-! DEFINITION. One arm per command. -/

namespace Sys2Proof.Machine

def exec (i : Instr) (s : State) : Host.Outcome State Fault Refusal :=
  match i with
  | .layout w => Sys2Proof.Machine.execLayout w s
  | .unpackOne w f => Sys2Proof.Machine.execUnpackOne w f s
  | .unpackBatch w k => Sys2Proof.Machine.execUnpackBatch w k s
  | .decode w n => Sys2Proof.Machine.execDecode w n s

end Sys2Proof.Machine
end

