-- ==== Sys2Proof/Machine/Port.lean ====
section
/-! DEFINITION. What one event at the port does: a command word, the host's writes between commands, reset, and
the host conduct the spec gives no meaning. Step.lean only calls these. -/

namespace Sys2Proof.Machine

/-- A command word: run what it decodes to; an illegal word raises `IllegalCommand` (R58, R144). -/
def runCommand (cmd : CmdWord) (s : State) : Host.Outcome State Fault Refusal :=
  match decodeWord cmd with
  | .ok i => exec i s
  | .error _ => .next (s.raise .illegalCommand)

/-- The host writes words of `BUF` (R10, R162); beyond the index space there is no word (R30; log entry 13). -/
def hostWriteBuf (j : Nat) (ws : List Word) (s : State) : Host.Outcome State Fault Refusal :=
  if j + ws.length ≤ Config.maxUnits then .next { s with buf := s.buf.write (4 * j) (bytesOfWords ws) }
  else .fault .hostAddress

/-- The host gives `BUF` as a byte slice (R32); it has to be whole words (R35, D19; log entry 14). -/
def hostLoadBytes (bs : List Byte) (s : State) : Host.Outcome State Fault Refusal :=
  if bs.length % 4 ≠ 0 then .refused .partialWord
  else if bs.length ≤ 4 * Config.maxUnits then .next { s with buf := s.buf.write 0 bs }
  else .fault .hostAddress

/-- The host writes cells of `OUT` (R10); beyond the index space there is no cell (R30; log entry 13). -/
def hostWriteOut (c : Nat) (vs : List Word) (s : State) : Host.Outcome State Fault Refusal :=
  if c + vs.length ≤ Config.maxUnits then .next { s with out := s.out.write (4 * c) (bytesOfWords vs) }
  else .fault .hostAddress

/-- Reset with no command in flight: every value of R24; the memories are without a value (R160; log entry 9).
What the host does next, and the numbering of draws, go on. -/
def resetIdle (s : State) : State := { State.reset with port := s.port, draw := s.draw }

/-- Reset while `cmd` is in flight: the registers take their reset values, the cells the command could have
written have no value, `BUF` is untouched (R161; log entries 9 and 10). -/
def resetInFlight (cmd : CmdWord) (s : State) : State :=
  let range :=
    match decodeWord cmd with
    | .ok i => Instr.target i
    | .error _ => (0, 0)
  { State.reset with
    buf := s.buf, out := s.out.erase (4 * range.1) (4 * range.2), port := s.port, draw := s.draw }

/-- One event. -/
def runEvent (e : HostEvent) (s : State) : Host.Outcome State Fault Refusal :=
  match e with
  | .command cmd => runCommand cmd s
  | .writeBuf j ws => hostWriteBuf j ws s
  | .loadBytes bs => hostLoadBytes bs s
  | .setBufLen v => .next { s with bufLen := v }
  | .writeOut c vs => hostWriteOut c vs s
  | .setOutCap v => .next { s with outCap := v }
  | .reset => .next (resetIdle s)
  | .resetDuring cmd => .next (resetInFlight cmd s)
  | .touchDuring _ => .refused .hostTouchedDuringCommand
  | .overstated _ => .refused .descriptorOverstated

end Sys2Proof.Machine
end

