-- ==== Sys2Proof/Machine/Step.lean ====
section
/-! DEFINITION. One step: the next thing at the port, or nothing (R165, R156). -/

namespace Sys2Proof.Machine

/-- One step. With nothing at the port the block is idle and holds its state unchanged (R156; log entry 7). -/
def step (s : State) : Host.Outcome State Fault Refusal :=
  match s.port with
  | [] => .next s
  | e :: rest => runEvent e (s.accept rest)

/-- `s` with a row's command word presented next at the command port: the block fetches nothing, the host
presents commands (R19, R45; log entry 6). -/
def State.withFetchWord (s : State) (nbits w : Nat) : State :=
  { s with port := .command (tableWord nbits w) :: s.port }

end Sys2Proof.Machine
end

