-- ==== Sys2Proof/Machine/Reference.lean ====
section
/-! DEFINITION. What correctness means: the bits of the stream (R31, R50), `read_bits` (R120), and the canonical
encoder `pack` (R51), which is outside the block. No command calls these. -/

namespace Sys2Proof.Machine

/-- `bit(p)`: logical bit `p` of the stream, 1 or 0, most significant bit first (R31). -/
def streamBit (buf : Nat → Word) (p : Nat) : Word := (buf (p / 32) >>> (31 - p % 32)) &&& 1#32

/-- `read_bits(buf, p, w)`: `w` bits from position `p`, the first the most significant (R120). -/
def readBits (buf : Nat → Word) (p : Nat) : Nat → Word
  | 0 => 0
  | w + 1 => (readBits buf p w <<< 1) ||| streamBit buf (p + w)

/-- One value as exactly `w` bits, most significant first (R51). -/
def fieldBits (w : Nat) (v : Word) : List Bool := (List.range w).map fun t => v.getLsbD (w - 1 - t)

/-- The bit string `v[0] || v[1] || …` (R51). -/
def packedStream (w : Nat) (vs : List Word) : List Bool := vs.flatMap (fieldBits w)

/-- The word made of the 32 stream bits from position `32 * j`, zero after the stream's end (R50, R51, D21). -/
def packedWord (w : Nat) (vs : List Word) (j : Nat) : Word :=
  (List.range 32).foldl
    (fun acc q => (acc <<< 1) ||| BitVec.setWidth 32 (BitVec.ofBool ((packedStream w vs).getD (32 * j + q) false)))
    0#32

/-- `pack(v, w)`: the stream cut into `ceil(n * w / 32)` words from the front (R51). -/
def pack (w : Nat) (vs : List Word) : List Word :=
  (List.range ((vs.length * w + 31) / 32)).map (packedWord w vs)

end Sys2Proof.Machine
end

