-- ==== Sys2Proof/Safety.lean ====
section
/-! DEFINITION. What a good state is: the invariant that every step keeps. -/

namespace Sys2Proof.Machine

/-- Both memories are in canonical form and list no address beyond their index spaces (R30). -/
abbrev State.Inv (s : State) : Prop :=
  s.buf.wf ∧ s.buf.below (4 * Config.maxUnits) ∧ s.out.wf ∧ s.out.below (4 * Config.maxUnits)

end Sys2Proof.Machine
end

