-- ==== Sys2Proof/Certificates/Slice0/Obligations.lean ====
section
/-! DEFINITION. The statements for the provers, in the order of the spec's files; each cites the rules it says. -/

namespace Sys2Proof.Machine

/-- The next thing at the port is this command word. -/
abbrev Issues (s : State) (cmd : CmdWord) (rest : List HostEvent) : Prop := s.port = .command cmd :: rest

/-- The three ways of R58 for a command word to be illegal. -/
abbrev IllegalWord (cmd : CmdWord) : Prop :=
  (CmdWord.opField cmd = 0 ∨ 5 ≤ (CmdWord.opField cmd).toNat) ∨ CmdWord.rsvField cmd ≠ 0 ∨
    (CmdWord.opField cmd = 1 ∧ CmdWord.argField cmd ≠ 0)

/-- "if CMD is illegal (R58): raise IllegalCommand", the first line of every command's rule, for one `OP`. -/
abbrev RaisesIllegal (op : BitVec 4) : Prop :=
  ∀ s cmd rest, Issues s cmd rest → CmdWord.opField cmd = op → IllegalWord cmd →
    step s = .next ((s.accept rest).raise .illegalCommand)

/-- The words of batch `k` of `BUF` as `unpack_batch` is given them (R37). -/
abbrev batchWords (s : State) (w k : Nat) : Nat → Word := fun m => s.memRead (k * w + m)

end Sys2Proof.Machine

open Sys2Proof Sys2Proof.Machine

/-! State and memory (10_state.md, 20_memory.md). -/

/-- The values R24 gives for reset; `RESULT` and `PLAN` have none there and are not mentioned. -/
def Obligations.ResetLeavesNothingBound : Prop :=
  State.reset.status = .ok ∧ State.reset.bufLen = 0 ∧ State.reset.outCap = 0 ∧
    (∀ j, State.reset.bufWord? j = none) ∧ (∀ c, State.reset.outCell? c = none) ∧
    (∀ a, State.reset.buf.read? a = none) ∧ ∀ a, State.reset.out.read? a = none

/-- R24: with both lengths 0 every data command with a legal width ends with `BufferTooShort`; a DECODE if `n > 0`. -/
def Obligations.UnboundDataCommandsFindNoBuffer : Prop :=
  ∀ (w i : Nat) (s : State), legalWidth w → s.bufLen = 0 → s.outCap = 0 →
    exec (.unpackOne w i) s = .next { s with status := .bufferTooShort } ∧
    exec (.unpackBatch w i) s = .next { s with status := .bufferTooShort } ∧
    (0 < i → exec (.decode w i) s = .next { s with status := .bufferTooShort })

/-- R12, R14, R16, R17, R38: which command may change which part of the state, over all commands; nothing is
changed by one that ends in an error but `STATUS`. -/
def Obligations.OnlyNamedCommandsWriteEachRegister : Prop :=
  ∀ (i : Instr) (s t : State), exec i s = .next t →
    t.buf = s.buf ∧ t.bufLen = s.bufLen ∧ t.outCap = s.outCap ∧ t.port = s.port ∧ t.draw = s.draw ∧
    (t.result ≠ s.result → t.status = .ok ∧ ∃ w f, i = .unpackOne w f) ∧
    (t.plan ≠ s.plan → t.status = .ok ∧ ∃ w, i = .layout w) ∧
    (t.out ≠ s.out → t.status = .ok ∧ ((∃ w k, i = .unpackBatch w k) ∨ ∃ w n, i = .decode w n))

/-- R32: `BUF` given as bytes is big-endian within a word, and the bits run most significant first. -/
def Obligations.ByteSliceIsBigEndian : Prop :=
  ∀ (s : State) (bs : List Byte) (rest : List HostEvent),
    s.port = .loadBytes bs :: rest → bs.length % 4 = 0 → bs.length ≤ 4 * Config.maxUnits →
    ∃ t, step s = .next t ∧ t = { s.accept rest with buf := t.buf } ∧
      (∀ (j : Nat) (h : 4 * j + 3 < bs.length), (t.memRead j).toNat =
        bs[4 * j].toNat * 2 ^ 24 + bs[4 * j + 1].toNat * 2 ^ 16 + bs[4 * j + 2].toNat * 2 ^ 8 +
          bs[4 * j + 3].toNat) ∧
      ∀ (p : Nat) (h : p / 8 < bs.length),
        (streamBit t.memRead p).toNat = bs[p / 8].toNat / 2 ^ (7 - p % 8) % 2

/-- R33: field `i` is the bits `[i*w, i*w + w)` of the stream, the first of them the most significant. -/
def Obligations.FieldIsItsBitsMostSignificantFirst : Prop :=
  ∀ (buf : Nat → Word) (w i : Nat), legalWidth w →
    (readBits buf (i * w) w).toNat =
      ∑ t ∈ Finset.range w, (streamBit buf (i * w + t)).toNat * 2 ^ (w - 1 - t)

/-- R34, R136 (d): bits beyond `n * w` never affect what DECODE does. -/
def Obligations.TrailingBitsAreIgnored : Prop :=
  ∀ (w n : Nat) (s : State) (b : Memory) (t : State),
    (∀ p < n * w, streamBit { s with buf := b }.memRead p = streamBit s.memRead p) →
    exec (.decode w n) s = .next t →
    exec (.decode w n) { s with buf := b } = .next { t with buf := b }

/-- R40: no command's effect depends on a word of `BUF` at or beyond `BUF_LEN`, and none changes a byte of `OUT`
at or beyond cell `OUT_CAP`. -/
def Obligations.NoCommandReachesOutOfBounds : Prop :=
  ∀ (i : Instr) (s t : State), exec i s = .next t →
    (∀ a, 4 * s.outCap.toNat ≤ a → t.out.read? a = s.out.read? a) ∧
    ∀ b : Memory, (∀ j < s.bufLen.toNat, { s with buf := b }.memRead j = s.memRead j) →
      exec i { s with buf := b } = .next { t with buf := b }

/-- R42 (c): no command reads `OUT`, `STATUS`, `RESULT` or `PLAN`. -/
def Obligations.NoCommandReadsTheResponses : Prop :=
  ∀ (i : Instr) (s t t' : State) (o : Memory) (st : Status) (r : Word) (p : LayoutPlan),
    exec i s = .next t → exec i { s with out := o, status := st, result := r, plan := p } = .next t' →
    t'.status = t.status ∧
    (t.status = .ok → ∀ w f, i = .unpackOne w f → t'.result = t.result) ∧
    (t.status = .ok → ∀ w, i = .layout w → t'.plan = t.plan) ∧
    (t.status = .ok → ∀ a, 4 * (Instr.target i).1 ≤ a → a < 4 * (Instr.target i).2 →
      t'.out.read? a = t.out.read? a)

/-! Encoding (30_encoding.md). -/

/-- R55 to R57: decoding the word of a well-formed command gives it back, every operand at every value. -/
def Obligations.DecodeOfEncodeIsTheCommand : Prop :=
  ∀ i : Instr, i.WellFormed → decodeWord (encode i) = .ok i

/-- R55, R56: a legal word has one meaning, and encoding it gives the word back. -/
def Obligations.EncodeOfDecodeIsTheWord : Prop :=
  ∀ (cmd : CmdWord) (i : Instr), decodeWord cmd = .ok i → i.WellFormed ∧ encode i = cmd

/-- R56: a word is a command exactly when its masked bits are the row's match. -/
def Obligations.MatchAndMaskSelectTheCommand : Prop :=
  ∀ cmd : CmdWord,
    ((∃ w, decodeWord cmd = .ok (.layout w)) ↔ cmd &&& 0xFFFFFF00FFFFFFFF#64 = 0x1000000000000000#64) ∧
    ((∃ w f, decodeWord cmd = .ok (.unpackOne w f)) ↔ cmd &&& 0xFFFFFF0000000000#64 = 0x2000000000000000#64) ∧
    ((∃ w k, decodeWord cmd = .ok (.unpackBatch w k)) ↔ cmd &&& 0xFFFFFF0000000000#64 = 0x3000000000000000#64) ∧
    ((∃ w n, decodeWord cmd = .ok (.decode w n)) ↔ cmd &&& 0xFFFFFF0000000000#64 = 0x4000000000000000#64)

/-- R57: `W` and `ARG` are the operands, unsigned and unscaled; LAYOUT's `ARG` is 0. -/
def Obligations.OperandsAreTheFields : Prop :=
  ∀ (cmd : CmdWord) (i : Instr), decodeWord cmd = .ok i →
    i.width = cmd.toNat / 2 ^ 32 % 2 ^ 8 ∧ i.arg = cmd.toNat % 2 ^ 32 ∧ i.op = cmd.toNat / 2 ^ 60

/-- R58: a word is refused by the decoder exactly when one of the three conditions holds, and it then ends with
`STATUS = 4` and changes nothing else. -/
def Obligations.IllegalWordsRaiseIllegalCommand : Prop :=
  ∀ cmd : CmdWord,
    ((∃ r, decodeWord cmd = .error r) ↔ IllegalWord cmd) ∧
    (IllegalWord cmd → ∀ s rest, Issues s cmd rest →
      step s = .next { s.accept rest with status := .illegalCommand } ∧ Status.illegalCommand.code = 4)

/-- R60: the five codes. -/
def Obligations.StatusCodesAreZeroToFour : Prop :=
  Status.ok.code = 0 ∧ Status.invalidWidth.code = 1 ∧ Status.bufferTooShort.code = 2 ∧
    Status.outputTooShort.code = 3 ∧ Status.illegalCommand.code = 4 ∧ ∀ st : Status, st.code.toNat ≤ 4

/-- R61: a command whose operands fit is assembled to `OP << 60 | w << 32 | arg`; any other cannot be. -/
def Obligations.AssembledWordsAreTheFormula : Prop :=
  ∀ i : Instr,
    (i.WellFormed → ∃ cmd, assemble i = some cmd ∧ cmd.toNat = i.op <<< 60 ||| i.width <<< 32 ||| i.arg) ∧
    (¬ i.WellFormed → assemble i = none)

/-- 95_test_vectors.md 2.1 to 2.7: one word of each row, and illegal words, written out from the encoding. -/
def Obligations.SampleWordsDecode : Prop :=
  decodeWord 0x1000000300000000 = .ok (.layout 3) ∧
  decodeWord 0x2000001F00000006 = .ok (.unpackOne 31 6) ∧
  decodeWord 0x3000000300000001 = .ok (.unpackBatch 3 1) ∧
  decodeWord 0x4000000300000046 = .ok (.decode 3 70) ∧
  decodeWord 0x4000002000000005 = .ok (.decode 32 5) ∧
  decodeWord 0x0000000000000000 = .error .reservedOp ∧
  decodeWord 0x4800000300000020 = .error .reservedBits ∧
  decodeWord 0x1000002000000001 = .error .layoutArg

/-! The offset_calculator (40_offset_calculator.md). -/

/-- R72: the document's predicate is `o + w > 32`; a field that ends its word does not straddle; width 1 never. -/
def Obligations.StraddlingIsCrossingTheWordEnd : Prop :=
  ∀ w i : Nat, legalWidth w →
    (straddles w i = true ↔ i * w / 32 ≠ ((i + 1) * w - 1) / 32) ∧
    (straddles w i = true ↔ 32 < (offset w i).2 + w) ∧
    ((offset w i).2 + w = 32 → straddles w i = false) ∧ straddles 1 i = false

/-- R73: straddling and the offset depend on `i` through `i mod (32 / gcd(32, w))`, so also through the lane. -/
def Obligations.StraddlingRepeatsWithThePeriod : Prop :=
  ∀ w i j : Nat, legalWidth w →
    (i % (32 / Nat.gcd 32 w) = j % (32 / Nat.gcd 32 w) ∨ i % 32 = j % 32) →
    straddles w i = straddles w j ∧ (offset w i).2 = (offset w j).2

/-- R74: the shift of a field that lies in one word brings it to the low end. -/
def Obligations.ShiftAlignsAWholeField : Prop :=
  ∀ (buf : Nat → Word) (w i : Nat), legalWidth w → straddles w i = false →
    fieldShift w i = 32 - (offset w i).2 - w ∧ fieldShift w i ≤ 31 ∧
    readBits buf (i * w) w = (buf (offset w i).1 >>> fieldShift w i) &&& BitVec.ofNat 32 (2 ^ w - 1)

/-- R75: the two part widths of a straddling field. -/
def Obligations.PartWidthsOfAStraddlingField : Prop :=
  ∀ w i : Nat, legalWidth w → straddles w i = true →
    highBits w i = 32 - (offset w i).2 ∧ lowBits w i = (offset w i).2 + w - 32 ∧
    highBits w i + lowBits w i = w ∧
    1 ≤ highBits w i ∧ highBits w i ≤ w - 1 ∧ 1 ≤ lowBits w i ∧ lowBits w i ≤ w - 1

/-- R76: a batch is `w` whole words, and no field straddles from one batch into the next. -/
def Obligations.BatchesAreWholeWords : Prop :=
  ∀ w k : Nat, legalWidth w →
    wordsPerBatch w = w ∧ offset w (32 * k) = (k * w, 0) ∧
    ((32 * (k + 1)) * w - 1) / 32 = (k + 1) * w - 1 ∧ ((32 * (k + 1)) * w - 1) % 32 = 31 ∧
    straddles w (32 * k + 31) = false

/-- R77: every field of the plan, in the field widths of R17. -/
def Obligations.LayoutFillsThePlan : Prop :=
  ∀ w : Nat, legalWidth w →
    (layout w).w.toNat = w ∧ (layout w).batch.toNat = 32 ∧
    (layout w).wordsPerBatch.toNat = (32 * w + 31) / 32 ∧
    ∀ l : Fin 32,
      if (offset w l).2 + w ≤ 32 then
        (layout w).lanes[l].word.toNat = (offset w l).1 ∧
        (layout w).lanes[l].shift.toNat = 32 - (offset w l).2 - w ∧
        (layout w).lanes[l].straddle = false
      else
        (layout w).lanes[l].straddle = true ∧
        (layout w).lanes[l].w0.toNat = (offset w l).1 ∧ (layout w).lanes[l].w1.toNat = (offset w l).1 + 1 ∧
        (layout w).lanes[l].hb.toNat = 32 - (offset w l).2 ∧
        (layout w).lanes[l].lb.toNat = (offset w l).2 + w - 32 ∧
        (layout w).lanes[l].word.toNat = (offset w l).1 + 1 ∧
        (layout w).lanes[l].shift.toNat = 64 - (offset w l).2 - w

/-- R17, R54: the ranges of the plan's lane fields; the four part fields of a lane that does not straddle read 0. -/
def Obligations.PlanFieldsKeepTheirRanges : Prop :=
  ∀ (w : Nat) (l : Fin 32), legalWidth w →
    (layout w).lanes[l].word.toNat ≤ 30 ∧
    ((layout w).lanes[l].straddle = true →
      (layout w).lanes[l].w0.toNat ≤ 29 ∧
      (1 ≤ (layout w).lanes[l].w1.toNat ∧ (layout w).lanes[l].w1.toNat ≤ 30) ∧
      (1 ≤ (layout w).lanes[l].hb.toNat ∧ (layout w).lanes[l].hb.toNat ≤ 30) ∧
      1 ≤ (layout w).lanes[l].lb.toNat ∧ (layout w).lanes[l].lb.toNat ≤ 30) ∧
    ((layout w).lanes[l].straddle = false →
      (layout w).lanes[l].w0 = 0 ∧ (layout w).lanes[l].w1 = 0 ∧ (layout w).lanes[l].hb = 0 ∧
      (layout w).lanes[l].lb = 0)

/-- R78: for a width that divides 32 no field straddles, and word and shift are as the rule says; for every other
width some lane of a batch straddles. -/
def Obligations.DegenerateWidthsNeverStraddle : Prop :=
  ∀ w : Nat, legalWidth w →
    (w ∈ [1, 2, 4, 8, 16] → ∀ i, straddles w i = false ∧
      ∀ l : Fin 32, (layout w).lanes[l].straddle = false ∧ (layout w).lanes[l].word.toNat = l * w / 32 ∧
        (layout w).lanes[l].shift.toNat = 32 - w - l * w % 32) ∧
    (w ∉ [1, 2, 4, 8, 16] → ∃ l : Fin 32, (layout w).lanes[l].straddle = true)

/-- R79: the number of straddling lanes of a batch. -/
def Obligations.StraddlingLanesAreCounted : Prop :=
  ∀ w : Nat, legalWidth w →
    ((List.finRange 32).filter fun l => (layout w).lanes[l].straddle).length = w - Nat.gcd 32 w

/-- R81: LAYOUT, every outcome, the whole next state; R80: twice with the same width is once. -/
def Obligations.LayoutCommandWritesThePlan : Prop :=
  RaisesIllegal 1 ∧ ∀ (w : Nat) (s : State),
    (legalWidth w → exec (.layout w) s = .next { s with plan := layout w, status := .ok } ∧
      ∀ t, exec (.layout w) s = .next t → exec (.layout w) t = .next t) ∧
    (¬ legalWidth w → exec (.layout w) s = .next { s with status := .invalidWidth })

/-! The shift_mask_merge_unit and the boundary_straddler (41, 42). -/

/-- R91, R92, R93: the three functions on values; no bit is lost and the OR is an addition. -/
def Obligations.MaskExtractMergeOnValues : Prop :=
  (∀ m, 1 ≤ m → m ≤ 31 → (mask m).toNat = 2 ^ m - 1) ∧
  (∀ (x : Word) (sh m : Nat), sh ≤ 31 → 1 ≤ m → m ≤ 31 →
    (extract x sh m).toNat = x.toNat / 2 ^ sh % 2 ^ m) ∧
  ∀ (hi lo : Word) (hb lb : Nat), 1 ≤ lb → lb ≤ 30 → hb + lb ≤ 31 → hi.toNat < 2 ^ hb → lo.toNat < 2 ^ lb →
    (merge hi lo lb).toNat = hi.toNat * 2 ^ lb + lo.toNat ∧ (merge hi lo lb).toNat < 2 ^ (hb + lb)

/-- R102: the fix-up of a straddling field is the field. -/
def Obligations.FixupRebuildsTheField : Prop :=
  ∀ (buf : Nat → Word) (w i : Nat), legalWidth w → straddles w i = true →
    fixup buf (offset w i).1 ((offset w i).1 + 1) (32 - (offset w i).2) ((offset w i).2 + w - 32) =
      readBits buf (i * w) w

/-! Batch and scalar unpacking (43, 44). -/

/-- R110: the bulk pass where the lane does not straddle, the fix-up where it does; no scratch value is left. -/
def Obligations.UnpackBatchIsExtractOrFixup : Prop :=
  ∀ (words : Nat → Word) (plan : LayoutPlan) (l : Fin 32),
    (plan.lanes[l].straddle = false → (unpackBatch words plan)[l] =
      extract (words plan.lanes[l].word.toNat) plan.lanes[l].shift.toNat plan.w.toNat) ∧
    (plan.lanes[l].straddle = true → (unpackBatch words plan)[l] =
      fixup words plan.lanes[l].w0.toNat plan.lanes[l].w1.toNat plan.lanes[l].hb.toNat plan.lanes[l].lb.toNat)

/-- R111: every lane of a batch is its field. -/
def Obligations.UnpackBatchLanesAreFields : Prop :=
  ∀ (words : Nat → Word) (w : Nat) (l : Fin 32), legalWidth w →
    (unpackBatch words (layout w))[l] = readBits words (l * w) w ∧
    ((unpackBatch words (layout w))[l]).toNat < 2 ^ w

/-- R113: UNPACK_BATCH, every outcome; on `OK` the 32 cells, every other byte of `OUT` and the rest as before. -/
def Obligations.UnpackBatchCommandWritesItsCells : Prop :=
  RaisesIllegal 3 ∧ ∀ (w k : Nat) (s : State),
    (¬ legalWidth w → exec (.unpackBatch w k) s = .next { s with status := .invalidWidth }) ∧
    (legalWidth w → (k + 1) * w > s.bufLen.toNat →
      exec (.unpackBatch w k) s = .next { s with status := .bufferTooShort }) ∧
    (legalWidth w → (k + 1) * w ≤ s.bufLen.toNat → (k + 1) * 32 > s.outCap.toNat →
      exec (.unpackBatch w k) s = .next { s with status := .outputTooShort }) ∧
    (legalWidth w → (k + 1) * w ≤ s.bufLen.toNat → (k + 1) * 32 ≤ s.outCap.toNat →
      ∃ t, exec (.unpackBatch w k) s = .next t ∧ t = { s with out := t.out, status := .ok } ∧
        (∀ l : Fin 32, t.outCell? (32 * k + l) = some (unpackBatch (batchWords s w k) (layout w))[l]) ∧
        ∀ a, a < 4 * (32 * k) ∨ 4 * (32 * k + 32) ≤ a → t.out.read? a = s.out.read? a)

/-- R114: after UNPACK_BATCH ends with `OK`, every cell of the batch is what the oracle gives. -/
def Obligations.BatchCellsEqualTheOracle : Prop :=
  ∀ (w k : Nat) (s t : State), exec (.unpackBatch w k) s = .next t → t.status = .ok →
    ∀ l : Fin 32, t.outCell? (32 * k + l) = some (unpackOne t.memRead w (32 * k + l))

/-- R122: the word-level routine is the bit-level definition. -/
def Obligations.UnpackOneIsReadBits : Prop :=
  ∀ (buf : Nat → Word) (w i : Nat), legalWidth w → unpackOne buf w i = readBits buf (i * w) w

/-- R123: UNPACK_ONE, every outcome, the whole next state. -/
def Obligations.UnpackOneCommandWritesResult : Prop :=
  RaisesIllegal 2 ∧ ∀ (w i : Nat) (s : State),
    (¬ legalWidth w → exec (.unpackOne w i) s = .next { s with status := .invalidWidth }) ∧
    (legalWidth w → (i + 1) * w > 32 * s.bufLen.toNat →
      exec (.unpackOne w i) s = .next { s with status := .bufferTooShort }) ∧
    (legalWidth w → (i + 1) * w ≤ 32 * s.bufLen.toNat →
      exec (.unpackOne w i) s = .next { s with result := unpackOne s.memRead w i, status := .ok })

/-- R52, R96, R120: `RESULT` is the field of the stream, zero-extended. -/
def Obligations.ScalarResultIsTheFieldZeroExtended : Prop :=
  ∀ (w i : Nat) (s : State), legalWidth w → (i + 1) * w ≤ 32 * s.bufLen.toNat →
    ∃ t, exec (.unpackOne w i) s = .next t ∧ t.status = .ok ∧
      t.result = readBits s.memRead (i * w) w ∧ t.result.toNat < 2 ^ w

/-- R125, R104: `unpack_one` depends on word `j` alone when the field does not straddle, else on `j` and `j + 1`. -/
def Obligations.ScalarReadsOneWordOrTwo : Prop :=
  ∀ (buf buf' : Nat → Word) (w i : Nat), legalWidth w → buf' (offset w i).1 = buf (offset w i).1 →
    (straddles w i = true → buf' ((offset w i).1 + 1) = buf ((offset w i).1 + 1)) →
    unpackOne buf' w i = unpackOne buf w i

/-! Whole-buffer decode (45_decode.md). -/

/-- R130, R131, R133, R134: DECODE, every outcome; on `OK` every field in its cell, below `2^w`, and every byte
of `OUT` beyond cell `n`, and the rest, as before. -/
def Obligations.DecodeDeliversEveryField : Prop :=
  RaisesIllegal 4 ∧ ∀ (w n : Nat) (s : State),
    (¬ legalWidth w → exec (.decode w n) s = .next { s with status := .invalidWidth }) ∧
    (legalWidth w → n * w > 32 * s.bufLen.toNat →
      exec (.decode w n) s = .next { s with status := .bufferTooShort }) ∧
    (legalWidth w → n * w ≤ 32 * s.bufLen.toNat → n > s.outCap.toNat →
      exec (.decode w n) s = .next { s with status := .outputTooShort }) ∧
    (legalWidth w → n * w ≤ 32 * s.bufLen.toNat → n ≤ s.outCap.toNat →
      ∃ t, exec (.decode w n) s = .next t ∧ t = { s with out := t.out, status := .ok } ∧
        (∀ i < n, t.outCell? i = some (readBits s.memRead (i * w) w) ∧
          t.outCell? i = some (unpackOne s.memRead w i) ∧ (readBits s.memRead (i * w) w).toNat < 2 ^ w) ∧
        ∀ a, 4 * n ≤ a → t.out.read? a = s.out.read? a)

/-- R135: a DECODE of no field does nothing but report. -/
def Obligations.DecodeOfNothingOnlyReports : Prop :=
  ∀ (w : Nat) (s : State),
    (legalWidth w → exec (.decode w 0) s = .next { s with status := .ok }) ∧
    (¬ legalWidth w → exec (.decode w 0) s = .next { s with status := .invalidWidth })

/-- R138: packing and then decoding gives the values back, for every count. -/
def Obligations.DecodeOfPackIsTheValues : Prop :=
  ∀ (w : Nat) (vs : List Word) (s : State), legalWidth w → (∀ v ∈ vs, v.toNat < 2 ^ w) →
    (∀ (j : Nat) (h : j < (pack w vs).length), s.memRead j = (pack w vs)[j]) →
    (pack w vs).length ≤ s.bufLen.toNat → vs.length ≤ s.outCap.toNat →
    ∃ t, exec (.decode w vs.length) s = .next t ∧ t.status = .ok ∧
      ∀ (i : Nat) (h : i < vs.length), t.outCell? i = some vs[i]

/-! Errors (60_exceptions.md). -/

/-- R141 to R145: exactly one status is reported, the first that applies in the order of R145. -/
def Obligations.FirstFailingCheckIsReported : Prop :=
  ∀ (s t : State) (cmd : CmdWord) (rest : List HostEvent), Issues s cmd rest → step s = .next t →
    t.status =
      let op := (CmdWord.opField cmd).toNat
      let w := (CmdWord.widthField cmd).toNat
      let arg := (CmdWord.argField cmd).toNat
      if IllegalWord cmd then .illegalCommand
      else if w = 0 ∨ 32 ≤ w then .invalidWidth
      else if op = 2 ∧ (arg + 1) * w > 32 * s.bufLen.toNat ∨ op = 3 ∧ (arg + 1) * w > s.bufLen.toNat ∨
          op = 4 ∧ arg * w > 32 * s.bufLen.toNat then .bufferTooShort
      else if op = 3 ∧ (arg + 1) * 32 > s.outCap.toNat ∨ op = 4 ∧ arg > s.outCap.toNat then .outputTooShort
      else .ok

/-- R146, R147: a command that ends in an error changes `STATUS` and nothing else, and what it does depends on no
word of `BUF`. -/
def Obligations.ErrorsChangeOnlyStatus : Prop :=
  ∀ (s t : State) (cmd : CmdWord) (rest : List HostEvent), Issues s cmd rest → step s = .next t →
    t.status ≠ .ok →
    t = { s.accept rest with status := t.status } ∧
    ∀ b : Memory, step { s with buf := b } = .next { t with buf := b }

/-- R148: after an error the next command runs as if the failed one had not been issued. -/
def Obligations.ErrorsLeaveNoTrace : Prop :=
  ∀ (i j : Instr) (s t : State), exec i s = .next t → t.status ≠ .ok → exec j t = exec j s

/-! Steps, reset, the host (70_reset_and_hazards.md). -/

/-- R165: a step runs the command the next word at the port decodes to, on the state that has taken the word. -/
def Obligations.StepRunsTheDecodedCommand : Prop :=
  ∀ (s : State) (cmd : CmdWord) (rest : List HostEvent) (i : Instr), Issues s cmd rest →
    decodeWord cmd = .ok i → step s = exec i { s with port := rest, draw := s.draw + 1 }

/-- R156: with nothing to do the block holds its state. -/
def Obligations.IdleBlockHoldsItsState : Prop :=
  ∀ s : State, s.port = [] → step s = .next s

/-- R169, R15: every command word, legal or not, completes, and its outcome does not depend on the last status. -/
def Obligations.EveryCommandCompletes : Prop :=
  ∀ (s : State) (cmd : CmdWord) (rest : List HostEvent), Issues s cmd rest →
    ∃ t, t.port = rest ∧ ∀ st : Status, step { s with status := st } = .next t

/-- R160: reset between commands. That what the host does next and the numbering of draws go on, and the values of
`RESULT` and `PLAN` in `State.reset`, are the model's choice (log entries 1, 2, 4 and 6). -/
def Obligations.ResetRestoresTheResetValues : Prop :=
  ∀ (s : State) (rest : List HostEvent), s.port = .reset :: rest →
    step s = .next { State.reset with port := rest, draw := s.draw + 1 }

/-- R161: reset while a command is in flight. Three things are the model's choice: the reset values of `RESULT` and
`PLAN` (log entries 1 and 2); that the whole target range loses its value also where the command's checks fail, an
illegal width among them, though R161 speaks of the cells the command could have written (log entry 10); that
R161 and not R160 governs `BUF` here (log entry 9). -/
def Obligations.ResetInFlightLosesTheTargetCells : Prop :=
  ∀ (s : State) (cmd : CmdWord) (rest : List HostEvent), s.port = .resetDuring cmd :: rest →
    ∃ t, step s = .next t ∧ t.status = State.reset.status ∧ t.bufLen = State.reset.bufLen ∧
      t.outCap = State.reset.outCap ∧ t.result = State.reset.result ∧ t.plan = State.reset.plan ∧
      t.buf = s.buf ∧
      (∀ w n, decodeWord cmd = .ok (.decode w n) → ∀ a < 4 * n, t.out.read? a = none) ∧
      ∀ w k, decodeWord cmd = .ok (.unpackBatch w k) →
        ∀ a, 4 * (32 * k) ≤ a → a < 4 * (32 * k + 32) → t.out.read? a = none

/-- R10, R162: what the host's writes of `BUF` and `OUT` between commands do. -/
def Obligations.HostWritesAreSeen : Prop :=
  ∀ (s : State) (j : Nat) (ws : List Word) (rest : List HostEvent), j + ws.length ≤ Config.maxUnits →
    (s.port = .writeBuf j ws :: rest →
      ∃ t, step s = .next t ∧ t = { s.accept rest with buf := t.buf } ∧
        (∀ (m : Nat) (h : m < ws.length), t.memRead (j + m) = ws[m]) ∧
        ∀ a, a < 4 * j ∨ 4 * (j + ws.length) ≤ a → t.buf.read? a = s.buf.read? a) ∧
    (s.port = .writeOut j ws :: rest →
      ∃ t, step s = .next t ∧ t = { s.accept rest with out := t.out } ∧
        (∀ (m : Nat) (h : m < ws.length), t.out.readWord? (j + m) = some ws[m]) ∧
        ∀ a, a < 4 * j ∨ 4 * (j + ws.length) ≤ a → t.out.read? a = s.out.read? a)

/-- The host sets the descriptors (R12, R14 and R162 say that it writes them). That setting a length changes that
register only, so that contents beyond a lowered length stay, is the model's choice: the spec is silent there
(log entry 19). -/
def Obligations.HostSetsTheDescriptors : Prop :=
  ∀ (s : State) (v : BitVec 32) (rest : List HostEvent),
    (s.port = .setBufLen v :: rest → step s = .next { s.accept rest with bufLen := v }) ∧
    (s.port = .setOutCap v :: rest → step s = .next { s.accept rest with outCap := v })

/-- R163, R164, R35, R30: host conduct the spec gives no meaning stops the model by name (log entries 11, 13, 14). -/
def Obligations.MeaninglessHostConductStops : Prop :=
  ∀ (s : State) (cmd : CmdWord) (bs : List Byte) (j : Nat) (ws : List Word) (rest : List HostEvent),
    (s.port = .touchDuring cmd :: rest → step s = .refused .hostTouchedDuringCommand) ∧
    (s.port = .overstated cmd :: rest → step s = .refused .descriptorOverstated) ∧
    (s.port = .loadBytes bs :: rest → bs.length % 4 ≠ 0 → step s = .refused .partialWord) ∧
    (s.port = .writeBuf j ws :: rest → Config.maxUnits < j + ws.length → step s = .fault .hostAddress) ∧
    (s.port = .writeOut j ws :: rest → Config.maxUnits < j + ws.length → step s = .fault .hostAddress)

/-! The invariant (Safety.lean). -/

/-- Both memories are canonical and within their spaces at reset. -/
def Obligations.InvariantHoldsAtReset : Prop := State.reset.Inv

/-- Every step, a command's or a host event's, keeps both memories canonical and within their spaces. -/
def Obligations.EveryStepKeepsTheInvariant : Prop :=
  ∀ s t : State, s.Inv → step s = .next t → t.Inv
end

