-- ==== Sys2Proof/Laws/State.lean ====
section
/-! SUPPORT. What each field of the state holds after each register write: one lemma per field per update. -/

namespace Sys2Proof.Machine

@[simp] theorem State.setResult_buf (s : State) (v : Word) : (s.setResult v).buf = s.buf := rfl
@[simp] theorem State.setResult_bufLen (s : State) (v : Word) : (s.setResult v).bufLen = s.bufLen := rfl
@[simp] theorem State.setResult_out (s : State) (v : Word) : (s.setResult v).out = s.out := rfl
@[simp] theorem State.setResult_outCap (s : State) (v : Word) : (s.setResult v).outCap = s.outCap := rfl
@[simp] theorem State.setResult_status (s : State) (v : Word) : (s.setResult v).status = s.status := rfl
@[simp] theorem State.setResult_result (s : State) (v : Word) : (s.setResult v).result = v := rfl
@[simp] theorem State.setResult_plan (s : State) (v : Word) : (s.setResult v).plan = s.plan := rfl
@[simp] theorem State.setResult_port (s : State) (v : Word) : (s.setResult v).port = s.port := rfl
@[simp] theorem State.setResult_draw (s : State) (v : Word) : (s.setResult v).draw = s.draw := rfl

@[simp] theorem State.setPlan_buf (s : State) (p : LayoutPlan) : (s.setPlan p).buf = s.buf := rfl
@[simp] theorem State.setPlan_bufLen (s : State) (p : LayoutPlan) : (s.setPlan p).bufLen = s.bufLen := rfl
@[simp] theorem State.setPlan_out (s : State) (p : LayoutPlan) : (s.setPlan p).out = s.out := rfl
@[simp] theorem State.setPlan_outCap (s : State) (p : LayoutPlan) : (s.setPlan p).outCap = s.outCap := rfl
@[simp] theorem State.setPlan_status (s : State) (p : LayoutPlan) : (s.setPlan p).status = s.status := rfl
@[simp] theorem State.setPlan_result (s : State) (p : LayoutPlan) : (s.setPlan p).result = s.result := rfl
@[simp] theorem State.setPlan_plan (s : State) (p : LayoutPlan) : (s.setPlan p).plan = p := rfl
@[simp] theorem State.setPlan_port (s : State) (p : LayoutPlan) : (s.setPlan p).port = s.port := rfl
@[simp] theorem State.setPlan_draw (s : State) (p : LayoutPlan) : (s.setPlan p).draw = s.draw := rfl

@[simp] theorem State.complete_buf (s : State) : (s.complete).buf = s.buf := rfl
@[simp] theorem State.complete_bufLen (s : State) : (s.complete).bufLen = s.bufLen := rfl
@[simp] theorem State.complete_out (s : State) : (s.complete).out = s.out := rfl
@[simp] theorem State.complete_outCap (s : State) : (s.complete).outCap = s.outCap := rfl
@[simp] theorem State.complete_status (s : State) : (s.complete).status = .ok := rfl
@[simp] theorem State.complete_result (s : State) : (s.complete).result = s.result := rfl
@[simp] theorem State.complete_plan (s : State) : (s.complete).plan = s.plan := rfl
@[simp] theorem State.complete_port (s : State) : (s.complete).port = s.port := rfl
@[simp] theorem State.complete_draw (s : State) : (s.complete).draw = s.draw := rfl

@[simp] theorem State.raise_buf (s : State) (e : Status) : (s.raise e).buf = s.buf := rfl
@[simp] theorem State.raise_bufLen (s : State) (e : Status) : (s.raise e).bufLen = s.bufLen := rfl
@[simp] theorem State.raise_out (s : State) (e : Status) : (s.raise e).out = s.out := rfl
@[simp] theorem State.raise_outCap (s : State) (e : Status) : (s.raise e).outCap = s.outCap := rfl
@[simp] theorem State.raise_status (s : State) (e : Status) : (s.raise e).status = e := rfl
@[simp] theorem State.raise_result (s : State) (e : Status) : (s.raise e).result = s.result := rfl
@[simp] theorem State.raise_plan (s : State) (e : Status) : (s.raise e).plan = s.plan := rfl
@[simp] theorem State.raise_port (s : State) (e : Status) : (s.raise e).port = s.port := rfl
@[simp] theorem State.raise_draw (s : State) (e : Status) : (s.raise e).draw = s.draw := rfl

@[simp] theorem State.accept_buf (s : State) (rest : List HostEvent) : (s.accept rest).buf = s.buf := rfl
@[simp] theorem State.accept_bufLen (s : State) (rest : List HostEvent) : (s.accept rest).bufLen = s.bufLen := rfl
@[simp] theorem State.accept_out (s : State) (rest : List HostEvent) : (s.accept rest).out = s.out := rfl
@[simp] theorem State.accept_outCap (s : State) (rest : List HostEvent) : (s.accept rest).outCap = s.outCap := rfl
@[simp] theorem State.accept_status (s : State) (rest : List HostEvent) : (s.accept rest).status = s.status := rfl
@[simp] theorem State.accept_result (s : State) (rest : List HostEvent) : (s.accept rest).result = s.result := rfl
@[simp] theorem State.accept_plan (s : State) (rest : List HostEvent) : (s.accept rest).plan = s.plan := rfl
@[simp] theorem State.accept_port (s : State) (rest : List HostEvent) : (s.accept rest).port = rest := rfl
@[simp] theorem State.accept_draw (s : State) (rest : List HostEvent) : (s.accept rest).draw = s.draw + 1 := rfl

@[simp] theorem State.memWrite_buf (s : State) (c : Nat) (vs : List Word) : (s.memWrite c vs).buf = s.buf := rfl
@[simp] theorem State.memWrite_bufLen (s : State) (c : Nat) (vs : List Word) : (s.memWrite c vs).bufLen = s.bufLen := rfl
@[simp] theorem State.memWrite_out (s : State) (c : Nat) (vs : List Word) : (s.memWrite c vs).out = s.out.write (4 * c) (bytesOfWords vs) := rfl
@[simp] theorem State.memWrite_outCap (s : State) (c : Nat) (vs : List Word) : (s.memWrite c vs).outCap = s.outCap := rfl
@[simp] theorem State.memWrite_status (s : State) (c : Nat) (vs : List Word) : (s.memWrite c vs).status = s.status := rfl
@[simp] theorem State.memWrite_result (s : State) (c : Nat) (vs : List Word) : (s.memWrite c vs).result = s.result := rfl
@[simp] theorem State.memWrite_plan (s : State) (c : Nat) (vs : List Word) : (s.memWrite c vs).plan = s.plan := rfl
@[simp] theorem State.memWrite_port (s : State) (c : Nat) (vs : List Word) : (s.memWrite c vs).port = s.port := rfl
@[simp] theorem State.memWrite_draw (s : State) (c : Nat) (vs : List Word) : (s.memWrite c vs).draw = s.draw := rfl

end Sys2Proof.Machine
end

