-- ==== Sys2Proof/Laws/Memory.lean ====
section
/-! SUPPORT. Reading a memory after a write or an erasure, byte by byte and word by word; the canonical form is
kept; the byte order goes round. -/

namespace Sys2Proof.Machine

theorem Memory.lookup_filter (m : Memory) (q : Nat → Bool) (a : Nat) :
    (m.filter fun c => q c.1).lookup a = if q a then m.lookup a else none := by
  induction m with
  | nil => simp
  | cons c m ih =>
    obtain ⟨b, v⟩ := c
    by_cases hb : a = b
    · subst hb
      cases hq : q a <;> simp [hq, ih]
    · have hab : (a == b) = false := by simpa using hb
      cases hq : q b <;> simp [hq, ih, List.lookup_cons, hab]

theorem Memory.lookup_zip (a : Nat) (bs : List Byte) (x : Nat) :
    ((List.range' a bs.length).zip bs).lookup x = if a ≤ x then bs[x - a]? else none := by
  induction bs generalizing a with
  | nil => simp
  | cons b bs ih =>
    simp only [List.length_cons, List.range'_succ, List.zip_cons_cons, List.lookup_cons, ih]
    rcases Nat.lt_trichotomy x a with h | h | h
    · have : (x == a) = false := by simp; omega
      rw [this, if_neg (by omega), if_neg (by omega)]
    · simp [h]
    · have hx : (x == a) = false := by simp; omega
      have h1 : x - a = (x - (a + 1)) + 1 := by omega
      rw [hx, if_pos (by omega), if_pos (by omega), h1]
      simp

/-- A read after a write: the stored byte inside the stored range, the old one outside. -/
theorem Memory.read?_write (m : Memory) (a : Nat) (bs : List Byte) (x : Nat) :
    (m.write a bs).read? x = if a ≤ x ∧ x < a + bs.length then bs[x - a]? else m.read? x := by
  have h1 := Memory.lookup_filter m (fun y => decide (y < a)) x
  have h2 := Memory.lookup_filter m (fun y => decide (a + bs.length ≤ y)) x
  simp only [Memory.read?, Memory.write, List.lookup_append, Memory.lookup_zip]
  rw [h1, h2]
  rcases Nat.lt_or_ge x a with h | h
  · have e1 : ¬ (a + bs.length ≤ x) := by omega
    have e2 : ¬ (a ≤ x) := by omega
    simp [h, e1, e2]
  · rcases Nat.lt_or_ge x (a + bs.length) with h' | h'
    · have e1 : ¬ (x < a) := by omega
      have e2 : ¬ (a + bs.length ≤ x) := by omega
      simp [h, h', e1, e2]
    · have e1 : ¬ (x < a) := by omega
      have e2 : ¬ (x < a + bs.length) := by omega
      have e3 : bs.length ≤ x - a := by omega
      simp [h, h', e1, e2, List.getElem?_eq_none e3]

/-- Outside the stored range every byte reads as before. -/
theorem Memory.read?_write_outside (m : Memory) (a : Nat) (bs : List Byte) (x : Nat)
    (h : x < a ∨ a + bs.length ≤ x) : (m.write a bs).read? x = m.read? x := by
  rw [Memory.read?_write, if_neg (by omega)]

theorem Memory.read?_erase (m : Memory) (lo hi x : Nat) :
    (m.erase lo hi).read? x = if x < lo ∨ hi ≤ x then m.read? x else none := by
  have h := Memory.lookup_filter m (fun y => decide (y < lo) || decide (hi ≤ y)) x
  simp only [Memory.read?, Memory.erase] at h ⊢
  rw [h]
  by_cases h1 : x < lo <;> by_cases h2 : hi ≤ x <;> simp [h1, h2]

theorem Memory.write_nil (m : Memory) : m.write 0 [] = m := by simp [Memory.write]

/-! The canonical form. -/

theorem Memory.wf_filter (m : Memory) (p : Host.Cell → Bool) (h : m.wf) : Memory.wf (m.filter p) :=
  List.Pairwise.filter p h

theorem Memory.zip_range'_wf (a : Nat) (bs : List Byte) : Memory.wf ((List.range' a bs.length).zip bs) := by
  induction bs generalizing a with
  | nil => simp
  | cons b bs ih =>
    simp only [List.length_cons, List.range'_succ, List.zip_cons_cons, List.pairwise_cons]
    refine ⟨fun c hc => ?_, ih (a + 1)⟩
    have := (List.of_mem_zip (show (c.1, c.2) ∈ _ from hc)).1
    rw [List.mem_range'_1] at this
    omega

theorem Memory.mem_zip_range' {a : Nat} {bs : List Byte} {c : Host.Cell}
    (hc : c ∈ (List.range' a bs.length).zip bs) : a ≤ c.1 ∧ c.1 < a + bs.length := by
  have := (List.of_mem_zip (show (c.1, c.2) ∈ _ from hc)).1
  rwa [List.mem_range'_1] at this

/-- A write keeps the canonical form. -/
theorem Memory.wf_write (m : Memory) (a : Nat) (bs : List Byte) (h : m.wf) : (m.write a bs).wf := by
  refine List.pairwise_append.2 ⟨Memory.wf_filter m _ h, List.pairwise_append.2
    ⟨Memory.zip_range'_wf a bs, Memory.wf_filter m _ h, ?_⟩, ?_⟩
  · intro c hc d hd
    have h1 := Memory.mem_zip_range' hc
    have h2 : a + bs.length ≤ d.1 := by simpa using (List.mem_filter.1 hd).2
    omega
  · intro c hc d hd
    have h1 : c.1 < a := by simpa using (List.mem_filter.1 hc).2
    rcases List.mem_append.1 hd with hd | hd
    · have := Memory.mem_zip_range' hd
      omega
    · have h2 : a + bs.length ≤ d.1 := by simpa using (List.mem_filter.1 hd).2
      omega

/-- An erasure keeps the canonical form. -/
theorem Memory.wf_erase (m : Memory) (lo hi : Nat) (h : m.wf) : (m.erase lo hi).wf :=
  Memory.wf_filter m _ h

/-- A write below a bound keeps every listed address below it. -/
theorem Memory.below_write (m : Memory) (a n : Nat) (bs : List Byte) (h : m.below n) (hb : a + bs.length ≤ n) :
    (m.write a bs).below n := by
  intro c hc
  rcases List.mem_append.1 hc with hc | hc
  · exact h c (List.mem_filter.1 hc).1
  rcases List.mem_append.1 hc with hc | hc
  · have := Memory.mem_zip_range' hc
    omega
  · exact h c (List.mem_filter.1 hc).1

theorem Memory.below_erase (m : Memory) (lo hi n : Nat) (h : m.below n) : (m.erase lo hi).below n :=
  fun c hc => h c (List.mem_filter.1 hc).1

/-! Byte order. -/

/-- The bytes of a word make the word again. -/
theorem wordOfBytes_bytesOfWord (v : Word) :
    wordOfBytes (v.extractLsb' 24 8) (v.extractLsb' 16 8) (v.extractLsb' 8 8) (v.extractLsb' 0 8) = v := by
  apply BitVec.eq_of_getLsbD_eq
  intro k hk
  simp only [wordOfBytes, BitVec.getLsbD_append, BitVec.getLsbD_extractLsb']
  split
  · simp; omega
  split
  · rename_i h1 h2
    have : 8 + (k - 8) = k := by omega
    simp [this]; omega
  split
  · rename_i h1 h2 h3
    have : 16 + (k - 8 - 8) = k := by omega
    simp [this]; omega
  · rename_i h1 h2 h3
    have : 24 + (k - 8 - 8 - 8) = k := by omega
    simp [this]; omega

/-- The value of a word given as four bytes, the first the most significant (R32). -/
theorem wordOfBytes_toNat (b0 b1 b2 b3 : Byte) :
    (wordOfBytes b0 b1 b2 b3).toNat = b0.toNat * 2 ^ 24 + b1.toNat * 2 ^ 16 + b2.toNat * 2 ^ 8 + b3.toNat := by
  simp only [wordOfBytes, BitVec.toNat_append]
  have h1 := b1.isLt
  have h2 := b2.isLt
  have h3 := b3.isLt
  rw [← Nat.shiftLeft_add_eq_or_of_lt (by omega), ← Nat.shiftLeft_add_eq_or_of_lt (by omega),
    ← Nat.shiftLeft_add_eq_or_of_lt (by omega)]
  simp only [Nat.shiftLeft_eq]
  omega

@[simp] theorem bytesOfWords_length (vs : List Word) : (bytesOfWords vs).length = 4 * vs.length := by
  induction vs with
  | nil => rfl
  | cons v vs ih => simp [bytesOfWords, bytesOfWord] at ih ⊢; omega

theorem bytesOfWords_getElem? (vs : List Word) (i r : Nat) (hr : r < 4) :
    (bytesOfWords vs)[4 * i + r]? = vs[i]?.bind fun v => (bytesOfWord v)[r]? := by
  induction vs generalizing i with
  | nil => simp [bytesOfWords]
  | cons v vs ih =>
    cases i with
    | zero =>
      simp only [bytesOfWords, List.flatMap_cons, Nat.mul_zero, Nat.zero_add]
      rw [List.getElem?_append_left (by simpa [bytesOfWord] using hr)]
      simp
    | succ i =>
      have h := ih i
      simp only [bytesOfWords, List.flatMap_cons] at h ⊢
      rw [List.getElem?_append_right (by simp [bytesOfWord]; omega)]
      have : 4 * (i + 1) + r - (bytesOfWord v).length = 4 * i + r := by simp [bytesOfWord]; omega
      rw [this, h]
      simp

/-- Reading whole words after whole words are stored. -/
theorem Memory.readWord?_write (m : Memory) (c : Nat) (vs : List Word) (x : Nat) :
    (m.write (4 * c) (bytesOfWords vs)).readWord? x =
      if c ≤ x ∧ x < c + vs.length then vs[x - c]? else m.readWord? x := by
  have hb (r : Nat) (hr : r < 4) : (m.write (4 * c) (bytesOfWords vs)).read? (4 * x + r) =
      if c ≤ x ∧ x < c + vs.length then vs[x - c]?.bind fun v => (bytesOfWord v)[r]? else m.read? (4 * x + r) := by
    rw [Memory.read?_write, bytesOfWords_length]
    by_cases h : c ≤ x ∧ x < c + vs.length
    · rw [if_pos h, if_pos (by omega), ← bytesOfWords_getElem? vs _ r hr]
      congr 1; omega
    · rw [if_neg h, if_neg (by omega)]
  have h0 := hb 0 (by omega)
  have h1 := hb 1 (by omega)
  have h2 := hb 2 (by omega)
  have h3 := hb 3 (by omega)
  rw [Nat.add_zero] at h0
  simp only [Memory.readWord?, h0, h1, h2, h3]
  by_cases h : c ≤ x ∧ x < c + vs.length
  · have hx : vs[x - c]? = some vs[x - c] := List.getElem?_eq_getElem (by omega)
    simp only [if_pos h, hx, Option.bind_some, bytesOfWord]
    simp [wordOfBytes_bytesOfWord]
  · simp only [if_neg h]

/-- A word all of whose bytes have been written is what the block reads. -/
theorem State.memRead_of_readWord? (s : State) (j : Nat) (v : Word) (h : s.buf.readWord? j = some v) :
    s.memRead j = v := by
  simp only [Memory.readWord?] at h
  split at h
  · rename_i h0 h1 h2 h3
    simp only [Option.some.injEq] at h
    simp [State.memRead, State.bufByte, h0, h1, h2, h3, h]
  · cases h

end Sys2Proof.Machine
end

