-- ==== Sys2Proof/Laws/Datapath.lean ====
section
/-! SUPPORT. The datapath bit by bit: which bit of which word each bit of a result is. -/

namespace Sys2Proof.Machine

theorem mask_getLsbD (m k : Nat) (hm : m ≤ 31) : (mask m).getLsbD k = decide (k < m) := by
  have h1 : (1 : Nat) ≤ 2 ^ m := Nat.one_le_two_pow
  have h2 : 2 ^ m ≤ 2 ^ 31 := Nat.pow_le_pow_right (by omega) hm
  have h : (mask m).toNat = 2 ^ m - 1 := by
    have e : 1 <<< m % 2 ^ 32 = 2 ^ m := by rw [Nat.one_shiftLeft]; omega
    simp only [mask, BitVec.toNat_sub, BitVec.toNat_shiftLeft, BitVec.toNat_ofNat, Nat.reducePow] at e ⊢
    omega
  rw [BitVec.getLsbD, h, Nat.testBit_two_pow_sub_one]

/-- Bit `k` of an extracted field is bit `sh + k` of the word, below the mask (R92). -/
theorem extract_getLsbD (x : Word) (sh m k : Nat) (hm : m ≤ 31) :
    (extract x sh m).getLsbD k = (decide (k < m) && x.getLsbD (sh + k)) := by
  simp only [extract, BitVec.getLsbD_and, BitVec.getLsbD_ushiftRight, mask_getLsbD m k hm, Bool.and_comm]

/-- Bit `k` of a merge is a bit of the high part moved up, or a bit of the low part (R93). -/
theorem merge_getLsbD (hi lo : Word) (lb k : Nat) :
    (merge hi lo lb).getLsbD k =
      ((decide (k < 32) && !decide (k < lb) && hi.getLsbD (k - lb)) || lo.getLsbD k) := by
  simp only [merge, BitVec.getLsbD_or, BitVec.getLsbD_shiftLeft]

/-- Bit `k` of a fix-up (R101): low part below `lb`, high part above. -/
theorem fixup_getLsbD (words : Nat → Word) (w0 w1 hb lb k : Nat) (h : hb + lb ≤ 31) :
    (fixup words w0 w1 hb lb).getLsbD k =
      if k < lb then (words w1).getLsbD (32 - lb + k)
      else decide (k < hb + lb) && (words w0).getLsbD (k - lb) := by
  rw [fixup, merge_getLsbD, extract_getLsbD _ _ _ _ (by omega), extract_getLsbD _ _ _ _ (by omega)]
  by_cases h1 : k < lb
  · simp [h1]
  · by_cases h2 : k < hb + lb
    · have e1 : k < 32 := by omega
      have e2 : k - lb < hb := by omega
      simp [h1, h2, e1, e2]
    · have e2 : ¬ (k - lb < hb) := by omega
      simp [h1, h2, e2]

/-- Logical bit `p` as a truth value (R31). -/
def streamBool (buf : Nat → Word) (p : Nat) : Bool := (buf (p / 32)).getLsbD (31 - p % 32)

theorem streamBit_getLsbD (buf : Nat → Word) (p k : Nat) :
    (streamBit buf p).getLsbD k = (decide (k = 0) && streamBool buf p) := by
  simp only [streamBit, streamBool, BitVec.getLsbD_and, BitVec.getLsbD_ushiftRight, BitVec.getLsbD_one]
  by_cases h : k = 0
  · simp [h]
  · simp [h]

theorem streamBit_toNat (buf : Nat → Word) (p : Nat) : (streamBit buf p).toNat = (streamBool buf p).toNat := by
  have h : streamBit buf p = BitVec.setWidth 32 (BitVec.ofBool (streamBool buf p)) := by
    apply BitVec.eq_of_getLsbD_eq
    intro k hk
    rw [streamBit_getLsbD]
    by_cases h : k = 0 <;> cases streamBool buf p <;> simp [h, hk]
  rw [h]
  cases streamBool buf p <;> rfl

/-- Two streams have the same logical bit exactly when their bit values agree. -/
theorem streamBit_eq_iff (buf buf' : Nat → Word) (p : Nat) :
    streamBit buf p = streamBit buf' p ↔ streamBool buf p = streamBool buf' p := by
  rw [← BitVec.toNat_inj, streamBit_toNat, streamBit_toNat]
  cases streamBool buf p <;> cases streamBool buf' p <;> simp

/-- Bit `k` of `read_bits` is the stream bit that stands `k` before the field's last (R33, R120). -/
theorem readBits_getLsbD (buf : Nat → Word) (p w k : Nat) (hw : w ≤ 32) :
    (readBits buf p w).getLsbD k = (decide (k < w) && streamBool buf (p + (w - 1 - k))) := by
  induction w generalizing k with
  | zero => simp [readBits]
  | succ w ih =>
    rw [readBits, BitVec.getLsbD_or, BitVec.getLsbD_shiftLeft, streamBit_getLsbD, ih _ (by omega)]
    cases k with
    | zero => simp
    | succ k =>
      by_cases h : k < w
      · have e1 : k + 1 < 32 := by omega
        have e2 : w - 1 - k = w - (k + 1) := by omega
        simp [h, e1, e2]
      · simp [h]

/-- A word whose bits from `w` up are 0 is below `2^w`. -/
theorem toNat_lt_of_getLsbD (x : Word) (w : Nat) (h : ∀ k, w ≤ k → x.getLsbD k = false) : x.toNat < 2 ^ w :=
  Nat.lt_pow_two_of_testBit _ h

end Sys2Proof.Machine
end

