-- ==== Sys2Proof/Laws/Exec.lean ====
section
/-! SUPPORT. What a command can do, said once: its checks, then its effect or an error. -/

namespace Sys2Proof.Machine

/-- What a command's checks find, for every command. -/
def Instr.check : Instr → State → Status
  | .layout w, _ => layoutCheck w
  | .unpackOne w i, s => unpackOneCheck w i s
  | .unpackBatch w k, s => unpackBatchCheck w k s
  | .decode w n, s => decodeCheck w n s

/-- What a command does once its checks have passed. -/
def Instr.effect : Instr → State → State
  | .layout w, s => s.setPlan (layout w)
  | .unpackOne w i, s => s.setResult (unpackOne s.memRead w i)
  | .unpackBatch w k, s => s.memWrite (Config.batch * k) (s.batchValues w k)
  | .decode w n, s => s.memWrite 0 (s.decodeValues w n)

/-- Every command is its checks and its effect. -/
theorem exec_eq_checked (i : Instr) (s : State) :
    exec i s = checked (Instr.check i s) (Instr.effect i) s := by
  cases i <;> rfl

theorem checked_ok (e : State → State) (s : State) : checked .ok e s = .next (e s).complete := rfl

theorem checked_error (c : Status) (e : State → State) (s : State) (h : c ≠ .ok) :
    checked c e s = .next (s.raise c) := by
  cases c <;> first | rfl | exact absurd rfl h

/-- The outcomes of a checked effect. -/
theorem checked_inv {c : Status} {e : State → State} {s t : State} (h : checked c e s = .next t) :
    (c = .ok ∧ t = (e s).complete) ∨ (c ≠ .ok ∧ t = s.raise c) := by
  by_cases hc : c = .ok
  · subst hc
    rw [checked_ok] at h
    exact .inl ⟨rfl, (Host.Outcome.next.inj h).symm⟩
  · rw [checked_error c e s hc] at h
    exact .inr ⟨hc, (Host.Outcome.next.inj h).symm⟩

/-- The two outcomes of a command, both next states. -/
theorem exec_inv {i : Instr} {s t : State} (h : exec i s = .next t) :
    (Instr.check i s = .ok ∧ t = (Instr.effect i s).complete) ∨
      (Instr.check i s ≠ .ok ∧ t = s.raise (Instr.check i s)) :=
  checked_inv (exec_eq_checked i s ▸ h)

/-- A command whose checks pass does its effect. -/
theorem exec_of_ok {i : Instr} {s : State} (h : Instr.check i s = .ok) :
    exec i s = .next (Instr.effect i s).complete := by
  rw [exec_eq_checked, h, checked_ok]

/-- A command whose checks fail raises what they found. -/
theorem exec_of_error {i : Instr} {s : State} (h : Instr.check i s ≠ .ok) :
    exec i s = .next (s.raise (Instr.check i s)) := by
  rw [exec_eq_checked, checked_error _ _ _ h]

/-! When the checks pass (R131, R142, R143). -/

theorem layoutCheck_ok (w : Nat) : layoutCheck w = .ok ↔ legalWidth w := by
  simp only [layoutCheck]; split <;> simp_all [legalWidth]

theorem unpackOneCheck_ok (w i : Nat) (s : State) :
    unpackOneCheck w i s = .ok ↔ legalWidth w ∧ (i + 1) * w ≤ 32 * s.bufLen.toNat := by
  simp only [unpackOneCheck]; split
  · simp_all
  split <;> simp_all [legalWidth]

theorem unpackBatchCheck_ok (w k : Nat) (s : State) :
    unpackBatchCheck w k s = .ok ↔
      legalWidth w ∧ (k + 1) * w ≤ s.bufLen.toNat ∧ (k + 1) * 32 ≤ s.outCap.toNat := by
  simp only [unpackBatchCheck]; split
  · simp_all
  split
  · simp_all
  split <;> simp_all [legalWidth]

theorem decodeCheck_ok (w n : Nat) (s : State) :
    decodeCheck w n s = .ok ↔ legalWidth w ∧ n * w ≤ 32 * s.bufLen.toNat ∧ n ≤ s.outCap.toNat := by
  simp only [decodeCheck]; split
  · simp_all
  split
  · simp_all
  split <;> simp_all [legalWidth]

/-- The checks look at the width and the two descriptors only. -/
theorem Instr.check_congr (i : Instr) (s s' : State) (hb : s'.bufLen = s.bufLen) (ho : s'.outCap = s.outCap) :
    Instr.check i s' = Instr.check i s := by
  cases i <;> simp [Instr.check, unpackOneCheck, unpackBatchCheck, decodeCheck, hb, ho]

/-! Lengths of what is written. -/

@[simp] theorem State.batchValues_length (s : State) (w k : Nat) : (s.batchValues w k).length = 32 := by
  simp [State.batchValues]

theorem State.batches_length (s : State) (w b : Nat) :
    ((List.range b).flatMap (s.batchValues w)).length = 32 * b := by
  induction b with
  | zero => rfl
  | succ b ih => simp [List.range_succ, ih]; omega

@[simp] theorem State.decodeValues_length (s : State) (w n : Nat) : (s.decodeValues w n).length = n := by
  simp only [State.decodeValues, List.length_append, State.batches_length, List.length_map, List.length_range', Config.batch]
  omega

end Sys2Proof.Machine
end

