-- ==== Sys2Proof/Laws/Decode.lean ====
section
/-! SUPPORT. The four fields of a command word as numbers, and the fields of an encoded command. -/

namespace Sys2Proof

theorem CmdWord.opField_toNat (cmd : CmdWord) : (CmdWord.opField cmd).toNat = cmd.toNat / 2 ^ 60 := by
  have := cmd.isLt
  simp only [CmdWord.opField, BitVec.extractLsb'_toNat, Nat.shiftRight_eq_div_pow]
  omega

theorem CmdWord.rsvField_toNat (cmd : CmdWord) :
    (CmdWord.rsvField cmd).toNat = cmd.toNat / 2 ^ 40 % 2 ^ 20 := by
  simp only [CmdWord.rsvField, BitVec.extractLsb'_toNat, Nat.shiftRight_eq_div_pow]

theorem CmdWord.widthField_toNat (cmd : CmdWord) :
    (CmdWord.widthField cmd).toNat = cmd.toNat / 2 ^ 32 % 2 ^ 8 := by
  simp only [CmdWord.widthField, BitVec.extractLsb'_toNat, Nat.shiftRight_eq_div_pow]

theorem CmdWord.argField_toNat (cmd : CmdWord) : (CmdWord.argField cmd).toNat = cmd.toNat % 2 ^ 32 := by
  simp only [CmdWord.argField, BitVec.extractLsb'_toNat, Nat.shiftRight_eq_div_pow, Nat.pow_zero, Nat.div_one]

/-- A word is its four fields (R55). -/
theorem CmdWord.toNat_eq_fields (cmd : CmdWord) :
    cmd.toNat = (CmdWord.opField cmd).toNat * 2 ^ 60 + (CmdWord.rsvField cmd).toNat * 2 ^ 40 +
      (CmdWord.widthField cmd).toNat * 2 ^ 32 + (CmdWord.argField cmd).toNat := by
  rw [CmdWord.opField_toNat, CmdWord.rsvField_toNat, CmdWord.widthField_toNat, CmdWord.argField_toNat]
  omega

theorem Instr.op_le (i : Instr) : 1 ≤ i.op ∧ i.op ≤ 4 := by cases i <;> simp [Instr.op]

/-- The encoded word of a well-formed command as a number (R55). -/
theorem encode_toNat (i : Instr) (h : i.WellFormed) :
    (encode i).toNat = i.op * 2 ^ 60 + i.width * 2 ^ 32 + i.arg := by
  have h1 : i.width < 2 ^ 8 := h.1
  have h2 : i.arg < 2 ^ 32 := h.2
  have h3 := i.op_le
  rw [encode, BitVec.toNat_ofNat]
  omega

/-- What a legal word decodes to: its fields, with nothing reserved set (R56, R58). -/
theorem decodeWord_ok {cmd : CmdWord} {i : Instr} (h : decodeWord cmd = .ok i) :
    CmdWord.rsvField cmd = 0 ∧
      ((CmdWord.opField cmd = 1 ∧ (CmdWord.argField cmd).toNat = 0 ∧ i = .layout (CmdWord.widthField cmd).toNat) ∨
        (CmdWord.opField cmd = 2 ∧
          i = .unpackOne (CmdWord.widthField cmd).toNat (CmdWord.argField cmd).toNat) ∨
        (CmdWord.opField cmd = 3 ∧
          i = .unpackBatch (CmdWord.widthField cmd).toNat (CmdWord.argField cmd).toNat) ∨
        (CmdWord.opField cmd = 4 ∧
          i = .decode (CmdWord.widthField cmd).toNat (CmdWord.argField cmd).toNat)) := by
  simp only [decodeWord] at h
  split at h
  · cases h
  rename_i h0
  refine ⟨not_not.1 h0, ?_⟩
  split at h
  · rename_i h1
    split at h
    · rename_i h2
      cases h
      exact .inl ⟨h1, h2, rfl⟩
    · cases h
  split at h
  · rename_i h2
    cases h
    exact .inr (.inl ⟨h2, rfl⟩)
  split at h
  · rename_i h3
    cases h
    exact .inr (.inr (.inl ⟨h3, rfl⟩))
  split at h
  · rename_i h4
    cases h
    exact .inr (.inr (.inr ⟨h4, rfl⟩))
  · cases h

end Sys2Proof
end

