-- ==== Sys2Proof/Laws/PerInstr.lean ====
section
/-! SUPPORT. A family of statements made command by command: the encoded word has the fixed bits of its row (R56). -/

namespace Sys2Proof.Laws

/-- A word whose low 40 bits are masked off keeps its top 24. -/
theorem and_high_mask (x : CmdWord) :
    (x &&& 0xFFFFFF0000000000#64).toNat = x.toNat / 2 ^ 40 * 2 ^ 40 := by
  have h : x &&& 0xFFFFFF0000000000#64 = (x >>> 40) <<< 40 := by
    apply BitVec.eq_of_getLsbD_eq
    intro k hk
    have hm : (0xFFFFFF0000000000#64 : BitVec 64).getLsbD k = decide (40 ≤ k) := by
      have : ∀ k : Fin 64, (0xFFFFFF0000000000#64 : BitVec 64).getLsbD k = decide (40 ≤ k.val) := by decide
      exact this ⟨k, hk⟩
    rw [BitVec.getLsbD_and, BitVec.getLsbD_shiftLeft, BitVec.getLsbD_ushiftRight, hm]
    by_cases h40 : 40 ≤ k
    · have e : 40 + (k - 40) = k := by omega
      simp [h40, hk, e]
    · have : k < 40 := by omega
      simp [h40, this]
  rw [h]
  have := x.isLt
  simp only [BitVec.toNat_shiftLeft, BitVec.toNat_ushiftRight, Nat.shiftRight_eq_div_pow, Nat.shiftLeft_eq]
  omega

/-- The mask of LAYOUT's row keeps the top 24 bits and the low 32. -/
theorem and_layout_mask (x : CmdWord) :
    (x &&& 0xFFFFFF00FFFFFFFF#64).toNat = x.toNat / 2 ^ 40 * 2 ^ 40 + x.toNat % 2 ^ 32 := by
  have h : x &&& 0xFFFFFF00FFFFFFFF#64 = (x &&& 0xFFFFFF0000000000#64) ||| (x &&& 0xFFFFFFFF#64) := by
    rw [← BitVec.and_or_distrib_left]; rfl
  have h2 : (x &&& 0xFFFFFFFF#64).toNat = x.toNat % 2 ^ 32 := by
    rw [BitVec.toNat_and]
    exact Nat.and_two_pow_sub_one_eq_mod x.toNat 32
  rw [h, BitVec.toNat_or, and_high_mask, h2]
  have e : x.toNat / 2 ^ 40 * 2 ^ 40 = (x.toNat / 2 ^ 40 * 2 ^ 8) <<< 32 := by
    rw [Nat.shiftLeft_eq]; omega
  rw [e, Nat.shiftLeft_add_eq_or_of_lt (by omega)]

namespace MatchMask

/-- The encoded word of a well-formed command, masked, is its row's match (R56). -/
def Statement (i : Instr) : Prop := i.WellFormed → encode i &&& i.maskWord = i.matchWord

theorem layout (w : Nat) : Statement (.layout w) := by
  intro h
  apply BitVec.eq_of_toNat_eq
  have h1 : w < 2 ^ 8 := h.1
  have e := encode_toNat _ h
  simp only [Instr.op, Instr.width, Instr.arg] at e
  have hm : (0x1000000000000000#64 : BitVec 64).toNat = 1 * 2 ^ 60 := rfl
  refine (and_layout_mask _).trans (Eq.trans ?_ hm.symm)
  omega

theorem unpackOne (w i : Nat) : Statement (.unpackOne w i) := by
  intro h
  apply BitVec.eq_of_toNat_eq
  have h1 : w < 2 ^ 8 := h.1
  have h2 : i < 2 ^ 32 := h.2
  have e := encode_toNat _ h
  simp only [Instr.op, Instr.width, Instr.arg] at e
  have hm : (0x2000000000000000#64 : BitVec 64).toNat = 2 * 2 ^ 60 := rfl
  refine (and_high_mask _).trans (Eq.trans ?_ hm.symm)
  omega

theorem unpackBatch (w k : Nat) : Statement (.unpackBatch w k) := by
  intro h
  apply BitVec.eq_of_toNat_eq
  have h1 : w < 2 ^ 8 := h.1
  have h2 : k < 2 ^ 32 := h.2
  have e := encode_toNat _ h
  simp only [Instr.op, Instr.width, Instr.arg] at e
  have hm : (0x3000000000000000#64 : BitVec 64).toNat = 3 * 2 ^ 60 := rfl
  refine (and_high_mask _).trans (Eq.trans ?_ hm.symm)
  omega

theorem decode (w n : Nat) : Statement (.decode w n) := by
  intro h
  apply BitVec.eq_of_toNat_eq
  have h1 : w < 2 ^ 8 := h.1
  have h2 : n < 2 ^ 32 := h.2
  have e := encode_toNat _ h
  simp only [Instr.op, Instr.width, Instr.arg] at e
  have hm : (0x4000000000000000#64 : BitVec 64).toNat = 4 * 2 ^ 60 := rfl
  refine (and_high_mask _).trans (Eq.trans ?_ hm.symm)
  omega

end MatchMask

end Sys2Proof.Laws
end

