-- ==== Sys2Proof/Laws/Step.lean ====
section
/-! SUPPORT. What one step does, by the event at the port. -/

namespace Sys2Proof.Machine

/-- A step with an event at the port runs it on the state that has taken it. -/
theorem step_event {s : State} {e : HostEvent} {rest : List HostEvent} (h : s.port = e :: rest) :
    step s = runEvent e (s.accept rest) := by
  simp only [step, h]

/-- A legal word runs its command; an illegal one raises. -/
theorem runCommand_ok {cmd : CmdWord} {i : Instr} (h : decodeWord cmd = .ok i) (s : State) :
    runCommand cmd s = exec i s := by
  simp only [runCommand, h]

theorem runCommand_error {cmd : CmdWord} {r : DecodeReject} (h : decodeWord cmd = .error r) (s : State) :
    runCommand cmd s = .next (s.raise .illegalCommand) := by
  simp only [runCommand, h]

/-- The outcomes of a command word. -/
theorem runCommand_inv {cmd : CmdWord} {s t : State} (h : runCommand cmd s = .next t) :
    (∃ i, decodeWord cmd = .ok i ∧ exec i s = .next t) ∨
      ((∃ r, decodeWord cmd = .error r) ∧ t = s.raise .illegalCommand) := by
  cases hd : decodeWord cmd with
  | ok i => exact .inl ⟨i, rfl, by rwa [runCommand_ok hd] at h⟩
  | error r =>
    rw [runCommand_error hd] at h
    exact .inr ⟨⟨r, rfl⟩, (Host.Outcome.next.inj h).symm⟩

/-- The bytes of `OUT` a command writes lie in the cells of its target. -/
theorem Instr.effect_out (i : Instr) (s : State) :
    (Instr.effect i s).out = s.out ∨
      ∃ vs : List Word, (Instr.effect i s).out = s.out.write (4 * (Instr.target i).1) (bytesOfWords vs) ∧
        (Instr.target i).1 + vs.length = (Instr.target i).2 := by
  cases i with
  | layout w => exact .inl rfl
  | unpackOne w f => exact .inl rfl
  | unpackBatch w k => exact .inr ⟨s.batchValues w k, rfl, by simp [Instr.target, Config.batch]⟩
  | decode w n => exact .inr ⟨s.decodeValues w n, rfl, by simp [Instr.target]⟩

/-- When the checks pass, the target lies below `OUT_CAP` (R40, R143). -/
theorem Instr.target_le {i : Instr} {s : State} (h : Instr.check i s = .ok) :
    (Instr.target i).2 ≤ s.outCap.toNat := by
  cases i with
  | layout w => simp [Instr.target]
  | unpackOne w f => simp [Instr.target]
  | unpackBatch w k =>
    have := ((unpackBatchCheck_ok w k s).1 h).2.2
    simp only [Instr.target, Config.batch]
    omega
  | decode w n => exact ((decodeCheck_ok w n s).1 h).2.2

/-- What no command changes. -/
theorem Instr.effect_frame (i : Instr) (s : State) :
    (Instr.effect i s).buf = s.buf ∧ (Instr.effect i s).bufLen = s.bufLen ∧
      (Instr.effect i s).outCap = s.outCap ∧ (Instr.effect i s).port = s.port ∧
      (Instr.effect i s).draw = s.draw := by
  cases i <;> exact ⟨rfl, rfl, rfl, rfl, rfl⟩

end Sys2Proof.Machine
end

