-- ==== Sys2Proof/Tests/Slice0.lean ====
section
/-! SUPPORT. The model's own tests: expected values are the spec's own worked examples (95_test_vectors.md and the
examples of its rules), never the model's answers. Then, for every obligation with hypotheses, a witness that
meets them all. -/

namespace Sys2Proof.Tests

open Sys2Proof Sys2Proof.Machine

/-! Helpers. -/

/-- A state with the words bound as `BUF`, room for `cap` cells, and this at the port. -/
def bound (ws : List Word) (cap : Nat) (port : List HostEvent) : State :=
  { State.reset with
    buf := Memory.write [] 0 (bytesOfWords ws), bufLen := BitVec.ofNat 32 ws.length,
    outCap := BitVec.ofNat 32 cap, port := port }

/-- The buffer `W7` of 95_test_vectors.md. -/
def w7 : List Word := [0x12345678, 0x9ABCDEF0, 0x0FEDCBA9, 0x87654321, 0xDEADBEEF, 0xCAFEBABE, 0x01234567]

/-- The buffer of the document's boundary example. -/
def w3 : List Word := [0xFFFFFFFF, 0x00000000, 0xFFFFFFFF]

/-- A word view of a list, for the micro-operations. -/
def view (ws : List Word) : Nat → Word := fun j => ws.getD j 0

/-- What one step leaves, as seen by `f`. -/
def seen {α : Type} (f : State → α) (s : State) : Option α :=
  match step s with
  | .next t => some (f t)
  | .fault _ => none
  | .refused _ => none

/-- `STATUS` and `count` cells from `lo`, as numbers. -/
def cells (lo count : Nat) (t : State) : Status × List (Option Nat) :=
  (t.status, (List.range' lo count).map fun c => (t.outCell? c).map BitVec.toNat)

/-! Form: each check refuses an ill-formed command (R61). -/

theorem test_width_256_is_ill_formed : ¬ (Instr.layout 256).widthFits ∧ ¬ (Instr.layout 256).WellFormed := by decide

theorem test_arg_2_32_is_ill_formed :
    ¬ (Instr.decode 3 (2 ^ 32)).argFits ∧ ¬ (Instr.decode 3 (2 ^ 32)).WellFormed := by decide

/-! Decoding: words written out bit by bit from the `encoding` column of the opcode table (R55, R56). -/

theorem test_decode_layout_bits :
    decodeWord 0b0001000000000000000000000001111100000000000000000000000000000000 = .ok (.layout 31) := by decide

theorem test_decode_unpackOne_bits :
    decodeWord 0b0010000000000000000000001000000110000000000000000000000000000110 =
      .ok (.unpackOne 129 0x80000006) := by decide

theorem test_decode_unpackBatch_bits :
    decodeWord 0b0011000000000000000000000000001100000000000000000000000000000001 = .ok (.unpackBatch 3 1) := by
  decide

theorem test_decode_decode_bits :
    decodeWord 0b0100000000000000000000000000010111111111111111111111111111111110 =
      .ok (.decode 5 0xFFFFFFFE) := by decide

theorem test_reserved_words_refused :
    decodeWord 0xF000000300000000 = .error .reservedOp ∧ decodeWord 0x4000010300000020 = .error .reservedBits ∧
      decodeWord 0x1000000300000001 = .error .layoutArg := by decide

theorem test_table_word : decodeTableWord 64 0x4000000300000020 = some (.decode 3 32) := by decide

/-! Syntax (R61; 95_test_vectors.md P1). -/

theorem test_assemble_decode :
    assembleLine "DECODE        3, 32      ; 0x4000000300000020" = some (some 0x4000000300000020) := by decide

theorem test_assemble_needs_the_operand_to_fit : assembleLine "LAYOUT 256" = none := by decide

/-! Micro-operations (95_test_vectors.md 2.1 to 2.3). -/

theorem test_offset_largest_index : offset 31 4294967295 = (4160749567, 1) := by decide

theorem test_layout_3_lane_10 : (layout 3).lanes[10] =
    { word := 1, shift := 31, parts := some { w0 := 0, w1 := 1, hb := 2, lb := 1 } } := by decide

theorem test_layout_5_lane_19 : (layout 5).lanes[19] =
    { word := 3, shift := 28, parts := some { w0 := 2, w1 := 3, hb := 1, lb := 4 } } := by decide

theorem test_mask_31 : mask 31 = 0x7FFFFFFF := by decide

theorem test_extract_has_no_sign : extract 0x80000000 31 1 = 0x1 ∧ extract 0x12345678 4 31 = 0x01234567 := by decide

theorem test_merge_largest : merge 0x1 0x3FFFFFFF 30 = 0x7FFFFFFF := by decide

theorem test_fixup_w24 : fixup (view w7) 1 2 16 8 = 0xDEF00F ∧ fixup (view w3) 1 2 1 2 = 3 := by decide

theorem test_bulk_leaves_scratch : (bulk (view w7) (layout 5))[19] = 8 ∧ (unpackBatch (view w7) (layout 5))[19] = 24 := by
  decide

theorem test_read_bits : readBits (view w3) 63 3 = 3 ∧ readBits (view w3) 30 3 = 6 := by decide

/-- `pack` of the first words of P2 (95_test_vectors.md). -/
theorem test_pack_p2 : pack 5 [3, 10, 17, 24, 31, 6, 13] = [0x1AA38F99, 0xA0000000] := by decide

/-! Commands, one step each, on the words of 95_test_vectors.md. -/

theorem test_layout_3 : seen (fun t => (t.status, t.plan.wordsPerBatch, t.plan == layout 3))
    (bound w3 32 [.command 0x1000000300000000]) = some (.ok, 3, true) := by decide

theorem test_unpackOne_31_6 : seen (fun t => (t.status, t.result))
    (bound w7 0 [.command 0x2000001F00000006]) = some (.ok, 0x7C02468A) := by decide

/-- The product of the largest index does not wrap (R123); a field of a word nothing has written is no stop (R24,
R169), its value is free. -/
theorem test_unpackOne_corners :
    seen (fun t => t.status) (bound w7 0 [.command 0x20000003FFFFFFFF]) = some .bufferTooShort ∧
    seen (fun t => t.status) { State.reset with bufLen := 1, port := [.command 0x2000000300000000] } = some .ok := by
  decide

theorem test_unpackBatch_3_1 : seen (cells 31 8) (bound w7 64 [.command 0x3000000300000001]) =
    some (.ok, [none, some 4, some 1, some 6, some 6, some 2, some 5, some 0]) := by decide +kernel

theorem test_unpackBatch_1_2_output : seen (fun t => t.status)
    (bound w7 64 [.command 0x3000000100000002]) = some .outputTooShort := by decide

theorem test_decode_31_3 : seen (cells 0 4) (bound w3 32 [.command 0x4000001F00000003]) =
    some (.ok, [some 0x7FFFFFFF, some 0x40000000, some 0x1FFFFFFF, none]) := by decide

theorem test_decode_3_32 : seen (cells 9 14) (bound w3 32 [.command 0x4000000300000020]) =
    some (.ok, [some 7, some 6, some 0, some 0, some 0, some 0, some 0, some 0, some 0, some 0, some 0, some 0,
      some 3, some 7]) := by decide +kernel

/-- A row's word as the first thing after reset (95_test_vectors.md P1). -/
theorem test_first_step_after_reset : seen (fun t => t.status)
    (State.reset.withFetchWord 64 0x1000000300000000) = some .ok := by decide

/-! Witnesses: for each obligation with hypotheses, a state and operands that meet them all. -/

theorem witness_UnboundDataCommandsFindNoBuffer :
    legalWidth 1 ∧ legalWidth 31 ∧ State.reset.bufLen = 0 ∧ State.reset.outCap = 0 ∧ 0 < 1 := by decide

theorem witness_OnlyNamedCommandsWriteEachRegister :
    (∃ t, exec (.unpackOne 3 10) (bound w3 32 []) = .next t ∧ t.result ≠ (bound w3 32 []).result) ∧
    (∃ t, exec (.layout 31) (bound w3 32 []) = .next t ∧ t.plan ≠ (bound w3 32 []).plan) ∧
    (∃ t, exec (.unpackBatch 3 0) (bound w3 32 []) = .next t ∧ t.out ≠ (bound w3 32 []).out) ∧
    ∃ t, exec (.decode 3 1) (bound w3 32 []) = .next t ∧ t.out ≠ (bound w3 32 []).out :=
  ⟨⟨_, rfl, by decide⟩, ⟨_, rfl, by decide⟩, ⟨_, rfl, by decide +kernel⟩, ⟨_, rfl, by decide⟩⟩

theorem witness_ByteSliceIsBigEndian :
    (bound [] 0 [.loadBytes [0x12, 0x34, 0x56, 0x78]]).port = .loadBytes [0x12, 0x34, 0x56, 0x78] :: [] ∧
    [0x12#8, 0x34, 0x56, 0x78].length % 4 = 0 ∧ [0x12#8, 0x34, 0x56, 0x78].length ≤ 4 * Config.maxUnits ∧
    4 * 0 + 3 < [0x12#8, 0x34, 0x56, 0x78].length ∧ 31 / 8 < [0x12#8, 0x34, 0x56, 0x78].length := by decide

theorem witness_FieldIsItsBitsMostSignificantFirst : legalWidth 1 ∧ legalWidth 31 := by decide

theorem witness_TrailingBitsAreIgnored :
    (∀ p < 2 * 3, streamBit { bound [0xFC000000] 2 [] with buf := (bound [0xFF000001] 2 []).buf }.memRead p =
      streamBit (bound [0xFC000000] 2 []).memRead p) ∧
    ∃ t, exec (.decode 3 2) (bound [0xFC000000] 2 []) = .next t ∧ t.status = .ok :=
  ⟨by decide, _, rfl, rfl⟩

theorem witness_NoCommandReachesOutOfBounds :
    (∃ t, exec (.decode 31 1) (bound [7] 1 []) = .next t ∧ t.status = .ok) ∧
    4 * (bound [7] 1 []).outCap.toNat ≤ 4 ∧
    ∀ j < (bound [7] 1 []).bufLen.toNat,
      { bound [7] 1 [] with buf := (bound [7, 8] 1 []).buf }.memRead j = (bound [7] 1 []).memRead j :=
  ⟨⟨_, rfl, rfl⟩, by decide, by decide⟩

theorem witness_NoCommandReadsTheResponses :
    ∃ t t', exec (.decode 31 1) (bound [7] 1 []) = .next t ∧
      exec (.decode 31 1) { bound [7] 1 [] with
        out := [(0, 9)], status := .invalidWidth, result := 5, plan := layout 3 } = .next t' ∧
      t.status = .ok ∧ 4 * (Instr.target (.decode 31 1)).1 ≤ 3 ∧ 3 < 4 * (Instr.target (.decode 31 1)).2 :=
  ⟨_, _, rfl, rfl, rfl, by decide, by decide⟩

theorem witness_DecodeOfEncodeIsTheCommand :
    (Instr.layout 255).WellFormed ∧ (Instr.unpackOne 0 (2 ^ 32 - 1)).WellFormed ∧
    (Instr.unpackBatch 255 0).WellFormed ∧ (Instr.decode 255 (2 ^ 32 - 1)).WellFormed := by decide

theorem witness_EncodeOfDecodeIsTheWord : decodeWord 0x400000FFFFFFFFFF = .ok (.decode 255 0xFFFFFFFF) := by decide

theorem witness_OperandsAreTheFields : decodeWord 0x2000001F00000006 = .ok (.unpackOne 31 6) := by decide

theorem witness_IllegalWordsRaiseIllegalCommand :
    IllegalWord 0x0000000000000000 ∧ IllegalWord 0x5000000300000000 ∧ IllegalWord 0x4800000300000020 ∧
    IllegalWord 0x1000002000000001 ∧ ¬ IllegalWord 0x4000000300000020 ∧
    Issues (bound w3 32 [.command 0]) 0 [] := by decide

theorem witness_AssembledWordsAreTheFormula :
    (Instr.decode 255 (2 ^ 32 - 1)).WellFormed ∧ ¬ (Instr.layout 256).WellFormed := by decide

theorem witness_StraddlingIsCrossingTheWordEnd :
    legalWidth 3 ∧ straddles 3 10 = true ∧ straddles 3 9 = false ∧ legalWidth 7 ∧ (offset 7 31).2 + 7 = 32 := by decide

theorem witness_StraddlingRepeatsWithThePeriod :
    legalWidth 12 ∧ 2 % (32 / Nat.gcd 32 12) = 10 % (32 / Nat.gcd 32 12) ∧ 1 % 32 = 33 % 32 := by decide

theorem witness_ShiftAlignsAWholeField :
    legalWidth 1 ∧ straddles 1 0 = false ∧ legalWidth 31 ∧ straddles 31 31 = false := by decide

theorem witness_PartWidthsOfAStraddlingField :
    legalWidth 2 ∧ legalWidth 31 ∧ straddles 31 1 = true ∧ straddles 31 30 = true := by decide

/-- For `BatchesAreWholeWords`, `StraddlingLanesAreCounted`, `UnpackBatchLanesAreFields` and `UnpackOneIsReadBits`,
whose one hypothesis is a legal width: the two ends of its range, and their neighbours. -/
theorem witness_LegalWidthStatements : legalWidth 1 ∧ legalWidth 31 ∧ ¬ legalWidth 0 ∧ ¬ legalWidth 32 := by decide

theorem witness_LayoutFillsThePlan :
    legalWidth 3 ∧ (offset 3 9).2 + 3 ≤ 32 ∧ ¬ (offset 3 10).2 + 3 ≤ 32 := by decide

theorem witness_PlanFieldsKeepTheirRanges :
    legalWidth 31 ∧ (layout 31).lanes[30].straddle = true ∧ (layout 31).lanes[31].straddle = false := by decide

theorem witness_DegenerateWidthsNeverStraddle :
    legalWidth 16 ∧ 16 ∈ [1, 2, 4, 8, 16] ∧ legalWidth 3 ∧ 3 ∉ [1, 2, 4, 8, 16] := by decide

theorem witness_MaskExtractMergeOnValues :
    (0x7FFFFFFF#32).toNat < 2 ^ 31 ∧ (0x3FFFFFFF#32).toNat < 2 ^ 30 ∧ (1#32).toNat < 2 ^ 1 ∧ 1 + 30 ≤ 31 := by decide

theorem witness_FixupRebuildsTheField : legalWidth 3 ∧ straddles 3 21 = true := by decide

theorem witness_UnpackBatchIsExtractOrFixup :
    (layout 3).lanes[0].straddle = false ∧ (layout 3).lanes[10].straddle = true := by decide

/-- The word `0x1…` of each row with a reserved bit set, for the first clause of the four command statements. -/
theorem witness_RaisesIllegal :
    IllegalWord 0x1000000300000001 ∧ CmdWord.opField 0x1000000300000001 = 1 ∧
    IllegalWord 0x2000010300000000 ∧ CmdWord.opField 0x2000010300000000 = 2 ∧
    IllegalWord 0x3000010300000000 ∧ CmdWord.opField 0x3000010300000000 = 3 ∧
    IllegalWord 0x4000010300000020 ∧ CmdWord.opField 0x4000010300000020 = 4 ∧
    Issues (bound w3 32 [.command 0x1000000300000001]) 0x1000000300000001 [] := by decide

theorem witness_LayoutCommandWritesThePlan : legalWidth 31 ∧ ¬ legalWidth 32 := by decide

theorem witness_UnpackBatchCommandWritesItsCells :
    (legalWidth 3 ∧ (0 + 1) * 3 ≤ (bound w3 32 []).bufLen.toNat ∧ (0 + 1) * 32 ≤ (bound w3 32 []).outCap.toNat) ∧
    (1 + 1) * 3 > (bound w3 32 []).bufLen.toNat ∧ (0 + 1) * 32 > (bound w3 31 []).outCap.toNat ∧
    ¬ legalWidth 0 := by decide

theorem witness_BatchCellsEqualTheOracle :
    ∃ t, exec (.unpackBatch 3 0) (bound w3 32 []) = .next t ∧ t.status = .ok := ⟨_, rfl, rfl⟩

theorem witness_UnpackOneCommandWritesResult :
    (legalWidth 3 ∧ (31 + 1) * 3 ≤ 32 * (bound w3 0 []).bufLen.toNat) ∧
    (32 + 1) * 3 > 32 * (bound w3 0 []).bufLen.toNat ∧ ¬ legalWidth 32 := by decide

theorem witness_ScalarResultIsTheFieldZeroExtended :
    legalWidth 7 ∧ (31 + 1) * 7 ≤ 32 * (bound w7 0 []).bufLen.toNat := by decide

theorem witness_ScalarReadsOneWordOrTwo :
    legalWidth 3 ∧ straddles 3 9 = false ∧ view [1, 2] (offset 3 9).1 = view [1, 9] (offset 3 9).1 ∧
    straddles 3 10 = true ∧ view [1, 2, 3] (offset 3 10).1 = view [1, 2, 9] (offset 3 10).1 ∧
    view [1, 2, 3] ((offset 3 10).1 + 1) = view [1, 2, 9] ((offset 3 10).1 + 1) := by decide

theorem witness_DecodeDeliversEveryField :
    (legalWidth 3 ∧ 32 * 3 ≤ 32 * (bound w3 32 []).bufLen.toNat ∧ 32 ≤ (bound w3 32 []).outCap.toNat) ∧
    33 * 3 > 32 * (bound w3 32 []).bufLen.toNat ∧
    (legalWidth 1 ∧ 33 * 1 ≤ 32 * (bound w3 32 []).bufLen.toNat ∧ 33 > (bound w3 32 []).outCap.toNat) ∧
    ¬ legalWidth 0 := by decide

theorem witness_DecodeOfNothingOnlyReports : legalWidth 1 ∧ legalWidth 31 ∧ ¬ legalWidth 32 := by decide

theorem witness_DecodeOfPackIsTheValues :
    legalWidth 31 ∧ (∀ v ∈ [0x7FFFFFFF#32, 1], v.toNat < 2 ^ 31) ∧
    (∀ (j : Nat) (h : j < (pack 31 [0x7FFFFFFF, 1]).length),
      (bound (pack 31 [0x7FFFFFFF, 1]) 2 []).memRead j = (pack 31 [0x7FFFFFFF, 1])[j]) ∧
    (pack 31 [0x7FFFFFFF, 1]).length ≤ (bound (pack 31 [0x7FFFFFFF, 1]) 2 []).bufLen.toNat ∧
    [0x7FFFFFFF#32, 1].length ≤ (bound (pack 31 [0x7FFFFFFF, 1]) 2 []).outCap.toNat :=
  ⟨by decide, by simp, by decide +kernel, by decide +kernel, by decide⟩

/-- One word for each status, in the state of 95_test_vectors.md 2.6. -/
theorem witness_FirstFailingCheckIsReported :
    (∃ t, step (bound w3 32 [.command 0x1000002000000001]) = .next t ∧ t.status = .illegalCommand) ∧
    (∃ t, step (bound w3 32 [.command 0x4000002000000005]) = .next t ∧ t.status = .invalidWidth) ∧
    (∃ t, step (bound w3 32 [.command 0x4000000300000021]) = .next t ∧ t.status = .bufferTooShort) ∧
    (∃ t, step (bound w3 32 [.command 0x4000000100000060]) = .next t ∧ t.status = .outputTooShort) ∧
    ∃ t, step (bound w3 32 [.command 0x4000000300000020]) = .next t ∧ t.status = .ok :=
  ⟨⟨_, rfl, rfl⟩, ⟨_, rfl, rfl⟩, ⟨_, rfl, rfl⟩, ⟨_, rfl, rfl⟩, ⟨_, rfl, rfl⟩⟩

theorem witness_ErrorsChangeOnlyStatus :
    ∃ t, step (bound w3 32 [.command 0x4000000300000021]) = .next t ∧ t.status ≠ .ok := ⟨_, rfl, by decide⟩

theorem witness_ErrorsLeaveNoTrace :
    ∃ t, exec (.decode 3 33) (bound w3 32 []) = .next t ∧ t.status ≠ .ok := ⟨_, rfl, by decide⟩

theorem witness_StepRunsTheDecodedCommand :
    Issues (bound w3 32 [.command 0x4000000300000020, .reset]) 0x4000000300000020 [.reset] ∧
    decodeWord 0x4000000300000020 = .ok (.decode 3 32) := by decide

theorem witness_IdleBlockHoldsItsState : (bound w3 32 []).port = [] := by decide

theorem witness_EveryCommandCompletes :
    Issues (bound w3 32 [.command 0x3000000300000000]) 0x3000000300000000 [] := by decide

theorem witness_ResetRestoresTheResetValues : (bound w3 32 [.reset]).port = .reset :: [] := by decide

theorem witness_ResetInFlightLosesTheTargetCells :
    (bound w3 64 [.resetDuring 0x4000000300000020]).port = .resetDuring 0x4000000300000020 :: [] ∧
    decodeWord 0x4000000300000020 = .ok (.decode 3 32) ∧ 127 < 4 * 32 ∧
    (bound w3 64 [.resetDuring 0x3000000300000001]).port = .resetDuring 0x3000000300000001 :: [] ∧
    decodeWord 0x3000000300000001 = .ok (.unpackBatch 3 1) ∧ 4 * (32 * 1) ≤ 128 ∧ 128 < 4 * (32 * 1 + 32) := by
  decide

theorem witness_HostWritesAreSeen :
    2 + w3.length ≤ Config.maxUnits ∧ (bound [] 0 [.writeBuf 2 w3]).port = .writeBuf 2 w3 :: [] ∧
    (bound [] 0 [.writeOut 2 w3]).port = .writeOut 2 w3 :: [] := by decide

theorem witness_HostSetsTheDescriptors :
    (bound [] 0 [.setBufLen 3]).port = .setBufLen 3 :: [] ∧
    (bound [] 0 [.setOutCap 32]).port = .setOutCap 32 :: [] := by decide

theorem witness_MeaninglessHostConductStops :
    (bound w3 32 [.touchDuring 0x4000000300000020]).port = .touchDuring 0x4000000300000020 :: [] ∧
    (bound w3 32 [.overstated 0x4000000300000020]).port = .overstated 0x4000000300000020 :: [] ∧
    (bound [] 0 [.loadBytes [1, 2, 3]]).port = .loadBytes [1, 2, 3] :: [] ∧ [1#8, 2, 3].length % 4 ≠ 0 ∧
    (bound [] 0 [.writeBuf (2 ^ 32 - 1) [7]]).port = .writeBuf (2 ^ 32 - 1) [7] :: [] ∧
    (bound [] 0 [.writeOut (2 ^ 32 - 1) [7]]).port = .writeOut (2 ^ 32 - 1) [7] :: [] ∧
    Config.maxUnits < 2 ^ 32 - 1 + [7#32].length := by decide

theorem witness_EveryStepKeepsTheInvariant :
    (bound w3 32 [.command 0x4000000300000020]).Inv ∧
    ∃ t, step (bound w3 32 [.command 0x4000000300000020]) = .next t ∧ t.out ≠ [] :=
  ⟨by decide, _, rfl, by decide +kernel⟩

end Sys2Proof.Tests
end

/-! Proofs of the statements on state and memory (10_state.md): which command writes which register, the ranges of
the plan, what a host write leaves, the reset state. -/

namespace Sys2Proof.Machine

/-! Which command's effect touches which register. -/

/-- Only UNPACK_ONE writes `RESULT` (R16). -/
theorem Instr.eq_unpackOne_of_effect_result_ne {i : Instr} {s : State}
    (h : (Instr.effect i s).result ≠ s.result) : ∃ w f, i = .unpackOne w f := by
  cases i with
  | unpackOne w f => exact ⟨w, f, rfl⟩
  | layout | unpackBatch | decode => exact absurd rfl h

/-- Only LAYOUT writes `PLAN` (R17). -/
theorem Instr.eq_layout_of_effect_plan_ne {i : Instr} {s : State}
    (h : (Instr.effect i s).plan ≠ s.plan) : ∃ w, i = .layout w := by
  cases i with
  | layout w => exact ⟨w, rfl⟩
  | unpackOne | unpackBatch | decode => exact absurd rfl h

/-- Only UNPACK_BATCH and DECODE write `OUT` (R14, R38). -/
theorem Instr.eq_unpackBatch_or_decode_of_effect_out_ne {i : Instr} {s : State}
    (h : (Instr.effect i s).out ≠ s.out) : (∃ w k, i = .unpackBatch w k) ∨ ∃ w n, i = .decode w n := by
  cases i with
  | unpackBatch w k => exact .inl ⟨w, k, rfl⟩
  | decode w n => exact .inr ⟨w, n, rfl⟩
  | layout | unpackOne => exact absurd rfl h

/-- Settles O3, by the two outcomes of a command: its effect, which writes its own registers only, or an error,
which writes `STATUS` only. -/
theorem onlyNamedCommandsWriteEachRegister : Obligations.OnlyNamedCommandsWriteEachRegister := by
  intro i s t h
  obtain ⟨-, rfl⟩ | ⟨-, rfl⟩ := exec_inv h
  · obtain ⟨hbuf, hbufLen, houtCap, hport, hdraw⟩ := Instr.effect_frame i s
    exact ⟨hbuf, hbufLen, houtCap, hport, hdraw,
      fun hne => ⟨rfl, Instr.eq_unpackOne_of_effect_result_ne hne⟩,
      fun hne => ⟨rfl, Instr.eq_layout_of_effect_plan_ne hne⟩,
      fun hne => ⟨rfl, Instr.eq_unpackBatch_or_decode_of_effect_out_ne hne⟩⟩
  · exact ⟨rfl, rfl, rfl, rfl, rfl, fun hne => absurd rfl hne, fun hne => absurd rfl hne,
      fun hne => absurd rfl hne⟩

/-! The lanes of the plan. -/

@[simp] theorem layout_lanes_getElem (w : Nat) (l : Fin 32) : (layout w).lanes[l] = lanePlan w l := by
  simp [layout]

/-- The plan of a lane whose field lies in one word (R77). -/
theorem lanePlan_of_le {w l : Nat} (h : (offset w l).2 + w ≤ 32) :
    lanePlan w l =
      { word := BitVec.ofNat 5 (offset w l).1, shift := BitVec.ofNat 5 (fieldShift w l), parts := none } := by
  simp only [lanePlan, if_pos h]

/-- The plan of a straddling lane (R77, D12). -/
theorem lanePlan_of_lt {w l : Nat} (h : 32 < (offset w l).2 + w) :
    lanePlan w l =
      { word := BitVec.ofNat 5 ((offset w l).1 + 1), shift := BitVec.ofNat 5 (32 - lowBits w l),
        parts := some
          { w0 := BitVec.ofNat 5 (offset w l).1, w1 := BitVec.ofNat 5 ((offset w l).1 + 1),
            hb := BitVec.ofNat 5 (highBits w l), lb := BitVec.ofNat 5 (lowBits w l) } } := by
  simp only [lanePlan, if_neg (Nat.not_le.2 h)]

/-- A lane is marked as straddling exactly when its field crosses the end of its first word (R72, R77). -/
theorem lanePlan_straddle_iff (w l : Nat) : (lanePlan w l).straddle = true ↔ 32 < (offset w l).2 + w := by
  rcases Nat.lt_or_ge 32 ((offset w l).2 + w) with h | h
  · simp [lanePlan_of_lt h, LanePlan.straddle, h]
  · simpa [lanePlan_of_le h, LanePlan.straddle] using h

/-- The last bit of lane `l` lies in the `w` words of its batch (R76). -/
theorem offset_add_width_le {w l : Nat} (hl : l < 32) : 32 * (offset w l).1 + (offset w l).2 + w ≤ 32 * w := by
  have hlast : l * w + w ≤ 32 * w := by
    rw [← Nat.succ_mul]
    exact Nat.mul_le_mul_right w hl
  simp only [offset]
  omega

/-- Every lane's first word is at most 30 (R17). -/
theorem offset_word_le {w l : Nat} (hw : legalWidth w) (hl : l < 32) : (offset w l).1 ≤ 30 := by
  obtain ⟨hlo, hhi⟩ : 1 ≤ w ∧ w ≤ 31 := hw
  have := offset_add_width_le (w := w) hl
  omega

/-- The first word of a straddling lane is at most 29 (R17). -/
theorem offset_word_le_of_straddling {w l : Nat} (hw : legalWidth w) (hl : l < 32)
    (h : 32 < (offset w l).2 + w) : (offset w l).1 ≤ 29 := by
  have hhi : w ≤ 31 := hw.2
  have := offset_add_width_le (w := w) hl
  omega

/-- The high part of a straddling field has 1 to 30 bits (R17, R75). -/
theorem highBits_range {w l : Nat} (hw : legalWidth w) (h : 32 < (offset w l).2 + w) :
    1 ≤ highBits w l ∧ highBits w l ≤ 30 := by
  have hhi : w ≤ 31 := hw.2
  simp only [offset] at h
  simp only [highBits, offset]
  omega

/-- The low part of a straddling field has 1 to 30 bits (R17, R75). -/
theorem lowBits_range {w l : Nat} (hw : legalWidth w) (h : 32 < (offset w l).2 + w) :
    1 ≤ lowBits w l ∧ lowBits w l ≤ 30 := by
  have hhi : w ≤ 31 := hw.2
  simp only [offset] at h
  simp only [lowBits, offset]
  omega

/-- A number below 32 fits a 5-bit field of the plan (R17). -/
theorem toNat_planField {n : Nat} (h : n < 32) : (BitVec.ofNat 5 n).toNat = n := by
  rw [BitVec.toNat_ofNat, Nat.mod_eq_of_lt h]

/-- The fields of a straddling lane's plan as numbers (R77, D12): none is cut by its five bits. -/
theorem lanePlan_toNat_of_lt {w l : Nat} (hw : legalWidth w) (hl : l < 32) (h : 32 < (offset w l).2 + w) :
    (lanePlan w l).word.toNat = (offset w l).1 + 1 ∧ (lanePlan w l).shift.toNat = 32 - lowBits w l ∧
      (lanePlan w l).w0.toNat = (offset w l).1 ∧ (lanePlan w l).w1.toNat = (offset w l).1 + 1 ∧
      (lanePlan w l).hb.toNat = highBits w l ∧ (lanePlan w l).lb.toNat = lowBits w l := by
  have hword := offset_word_le_of_straddling hw hl h
  have hhb := highBits_range hw h
  have hlb := lowBits_range hw h
  rw [lanePlan_of_lt h]
  exact ⟨toNat_planField (by omega), toNat_planField (by omega), toNat_planField (by omega),
    toNat_planField (by omega), toNat_planField (by omega), toNat_planField (by omega)⟩

/-- Settles O23, by whether the lane's field crosses the end of its first word; each field of the plan holds its
number, which is below 32. -/
theorem planFieldsKeepTheirRanges : Obligations.PlanFieldsKeepTheirRanges := by
  intro w l hw
  simp only [layout_lanes_getElem, lanePlan_straddle_iff, ← Bool.not_eq_true]
  rcases Nat.lt_or_ge 32 ((offset w l).2 + w) with h | h
  · obtain ⟨hword, -, hw0, hw1, hhb, hlb⟩ := lanePlan_toNat_of_lt hw l.isLt h
    have hj := offset_word_le_of_straddling hw l.isLt h
    rw [hword, hw0, hw1, hhb, hlb]
    exact ⟨by omega, fun _ => ⟨hj, by omega, highBits_range hw h, lowBits_range hw h⟩, fun hn => absurd h hn⟩
  · have hj := offset_word_le hw l.isLt
    rw [lanePlan_of_le h, toNat_planField (by omega)]
    exact ⟨hj, fun hn => absurd hn (Nat.not_lt.2 h), fun _ => ⟨rfl, rfl, rfl, rfl⟩⟩

/-! Host writes. -/

/-- A host write of `BUF` within the index space stores the words (R162). -/
theorem hostWriteBuf_of_le {j : Nat} {ws : List Word} (s : State) (h : j + ws.length ≤ Config.maxUnits) :
    hostWriteBuf j ws s = .next { s with buf := s.buf.write (4 * j) (bytesOfWords ws) } := by
  simp only [hostWriteBuf, if_pos h]

/-- A host write of `OUT` within the index space stores the cells (R10). -/
theorem hostWriteOut_of_le {c : Nat} {vs : List Word} (s : State) (h : c + vs.length ≤ Config.maxUnits) :
    hostWriteOut c vs s = .next { s with out := s.out.write (4 * c) (bytesOfWords vs) } := by
  simp only [hostWriteOut, if_pos h]

/-- Each stored word reads as stored. -/
theorem Memory.readWord?_write_same (m : Memory) (c : Nat) (vs : List Word) (i : Nat) (h : i < vs.length) :
    (m.write (4 * c) (bytesOfWords vs)).readWord? (c + i) = some vs[i] := by
  rw [Memory.readWord?_write, if_pos (by omega), Nat.add_sub_cancel_left, List.getElem?_eq_getElem h]

/-- Outside the stored words every byte reads as before. -/
theorem Memory.read?_writeWords_outside (m : Memory) (c : Nat) (vs : List Word) (a : Nat)
    (h : a < 4 * c ∨ 4 * (c + vs.length) ≤ a) :
    (m.write (4 * c) (bytesOfWords vs)).read? a = m.read? a :=
  Memory.read?_write_outside _ _ _ _ (by rw [bytesOfWords_length]; omega)

/-- Settles O48, by reading a memory after words are stored: inside and outside the stored range. -/
theorem hostWritesAreSeen : Obligations.HostWritesAreSeen := by
  intro s j ws rest hj
  constructor <;> intro hport <;> rw [step_event hport]
  · exact ⟨_, hostWriteBuf_of_le _ hj, rfl,
      fun m h => State.memRead_of_readWord? _ _ _ (Memory.readWord?_write_same _ j ws m h),
      Memory.read?_writeWords_outside _ j ws⟩
  · exact ⟨_, hostWriteOut_of_le _ hj, rfl, Memory.readWord?_write_same _ j ws,
      Memory.read?_writeWords_outside _ j ws⟩

/-- Settles O49: the two events set their register. -/
theorem hostSetsTheDescriptors : Obligations.HostSetsTheDescriptors :=
  fun _ _ _ => ⟨fun hport => step_event hport, fun hport => step_event hport⟩

/-! The reset state. -/

/-- No byte of an empty memory has a value (R24). -/
@[simp] theorem Memory.read?_nil (a : Nat) : Memory.read? [] a = none := rfl

/-- Settles O1: both memories are empty at reset, and both lengths admit no unit. -/
theorem resetLeavesNothingBound : Obligations.ResetLeavesNothingBound :=
  ⟨rfl, rfl, rfl, fun j => if_neg (Nat.not_lt_zero j), fun c => if_neg (Nat.not_lt_zero c),
    Memory.read?_nil, Memory.read?_nil⟩

/-- Settles O51: an empty memory is canonical and lists no address. -/
theorem invariantHoldsAtReset : Obligations.InvariantHoldsAtReset :=
  ⟨.nil, List.forall_mem_nil _, .nil, List.forall_mem_nil _⟩

/-! A buffer with too few bits (R142). -/

theorem unpackOneCheck_bufferTooShort {w i : Nat} {s : State} (hw : legalWidth w)
    (h : 32 * s.bufLen.toNat < (i + 1) * w) : unpackOneCheck w i s = .bufferTooShort := by
  simp only [unpackOneCheck, if_neg (not_not.2 hw), if_pos h]

theorem unpackBatchCheck_bufferTooShort {w k : Nat} {s : State} (hw : legalWidth w)
    (h : s.bufLen.toNat < (k + 1) * w) : unpackBatchCheck w k s = .bufferTooShort := by
  simp only [unpackBatchCheck, if_neg (not_not.2 hw), if_pos h]

theorem decodeCheck_bufferTooShort {w n : Nat} {s : State} (hw : legalWidth w)
    (h : 32 * s.bufLen.toNat < n * w) : decodeCheck w n s = .bufferTooShort := by
  simp only [decodeCheck, if_neg (not_not.2 hw), if_pos h]

/-- A command whose checks find `e` ends with `STATUS = e` and changes nothing else (R146). -/
theorem exec_of_check_eq {i : Instr} {s : State} {e : Status} (h : Instr.check i s = e) (he : e ≠ .ok) :
    exec i s = .next { s with status := e } := by
  subst h
  exact exec_of_error he

/-- Settles O2: with `BUF_LEN = 0` every field has a bit that `BUF` lacks. -/
theorem unboundDataCommandsFindNoBuffer : Obligations.UnboundDataCommandsFindNoBuffer := by
  intro w i s hw hlen _
  have hzero : s.bufLen.toNat = 0 := by rw [hlen]; rfl
  have hpos (n : Nat) (hn : 0 < n) : 0 < n * w := Nat.mul_pos hn hw.1
  exact ⟨exec_of_check_eq (unpackOneCheck_bufferTooShort hw (by simpa [hzero] using hpos _ i.succ_pos)) nofun,
    exec_of_check_eq (unpackBatchCheck_bufferTooShort hw (by simpa [hzero] using hpos _ i.succ_pos)) nofun,
    fun hi => exec_of_check_eq (decodeCheck_bufferTooShort hw (by simpa [hzero] using hpos _ hi)) nofun⟩

end Sys2Proof.Machine

/-! Proofs of the statements on memory (20_memory.md): the invariant of the two memories, the bits of the stream as
numbers, the fields a command delivers as `read_bits` of the stream, and what a command depends on. -/

namespace Sys2Proof.Machine

/-! The invariant of the two memories (R30). -/

/-- A canonical memory within its index space: what `State.Inv` says of `BUF` and of `OUT`. -/
def Memory.Canonical (m : Memory) : Prop := m.wf ∧ m.below (4 * Config.maxUnits)

theorem State.inv_iff (s : State) : s.Inv ↔ s.buf.Canonical ∧ s.out.Canonical :=
  and_assoc.symm

theorem Memory.Canonical.write {m : Memory} (hm : m.Canonical) {a : Nat} {bs : List Byte}
    (h : a + bs.length ≤ 4 * Config.maxUnits) : (m.write a bs).Canonical :=
  ⟨Memory.wf_write m a bs hm.1, Memory.below_write m a _ bs hm.2 h⟩

theorem Memory.Canonical.writeWords {m : Memory} (hm : m.Canonical) {c : Nat} {vs : List Word}
    (h : c + vs.length ≤ Config.maxUnits) : (m.write (4 * c) (bytesOfWords vs)).Canonical :=
  hm.write (by rw [bytesOfWords_length]; omega)

theorem Memory.Canonical.erase {m : Memory} (hm : m.Canonical) (lo hi : Nat) : (m.erase lo hi).Canonical :=
  ⟨Memory.wf_erase m lo hi hm.1, Memory.below_erase m lo hi _ hm.2⟩

/-- `OUT_CAP` admits cells of the index space only (R14, R30). -/
theorem State.outCap_le_maxUnits (s : State) : s.outCap.toNat ≤ Config.maxUnits :=
  Nat.le_pred_of_lt s.outCap.isLt

/-- A command keeps the invariant: what it writes of `OUT` lies below `OUT_CAP` (R40). -/
theorem exec_keeps_inv {i : Instr} {s t : State} (hs : s.Inv) (h : exec i s = .next t) : t.Inv := by
  rw [State.inv_iff] at hs ⊢
  obtain ⟨hbuf, hout⟩ := hs
  obtain ⟨hok, rfl⟩ | ⟨-, rfl⟩ := exec_inv h
  · refine ⟨?_, ?_⟩
    · rwa [State.complete_buf, (Instr.effect_frame i s).1]
    · rw [State.complete_out]
      obtain heq | ⟨vs, heq, hlen⟩ := Instr.effect_out i s
      · rwa [heq]
      · rw [heq]
        have hcap := (Instr.target_le hok).trans s.outCap_le_maxUnits
        exact hout.writeWords (hlen ▸ hcap)
  · exact ⟨hbuf, hout⟩

/-- A command word keeps the invariant, legal or not. -/
theorem runCommand_keeps_inv {cmd : CmdWord} {s t : State} (hs : s.Inv) (h : runCommand cmd s = .next t) :
    t.Inv := by
  obtain ⟨i, -, hexec⟩ | ⟨-, rfl⟩ := runCommand_inv h
  · exact exec_keeps_inv hs hexec
  · exact hs

/-! The outcomes of a host write: it stores within the index space, or gives no next state. -/

theorem hostWriteBuf_next {j : Nat} {ws : List Word} {s t : State} (h : hostWriteBuf j ws s = .next t) :
    j + ws.length ≤ Config.maxUnits ∧ t = { s with buf := s.buf.write (4 * j) (bytesOfWords ws) } := by
  rw [hostWriteBuf] at h
  split at h
  next hle => exact ⟨hle, (Host.Outcome.next.inj h).symm⟩
  next => cases h

theorem hostWriteOut_next {c : Nat} {vs : List Word} {s t : State} (h : hostWriteOut c vs s = .next t) :
    c + vs.length ≤ Config.maxUnits ∧ t = { s with out := s.out.write (4 * c) (bytesOfWords vs) } := by
  rw [hostWriteOut] at h
  split at h
  next hle => exact ⟨hle, (Host.Outcome.next.inj h).symm⟩
  next => cases h

theorem hostLoadBytes_next {bs : List Byte} {s t : State} (h : hostLoadBytes bs s = .next t) :
    bs.length ≤ 4 * Config.maxUnits ∧ t = { s with buf := s.buf.write 0 bs } := by
  rw [hostLoadBytes] at h
  split at h
  next => cases h
  next =>
    split at h
    next hle => exact ⟨hle, (Host.Outcome.next.inj h).symm⟩
    next => cases h

/-- Every event keeps the invariant. -/
theorem runEvent_keeps_inv {e : HostEvent} {s t : State} (hs : s.Inv) (h : runEvent e s = .next t) : t.Inv := by
  obtain ⟨hbuf, hout⟩ := s.inv_iff.1 hs
  cases e with
  | command cmd => exact runCommand_keeps_inv hs h
  | writeBuf j ws =>
    obtain ⟨hle, rfl⟩ := hostWriteBuf_next h
    exact (State.inv_iff _).2 ⟨hbuf.writeWords hle, hout⟩
  | loadBytes bs =>
    obtain ⟨hle, rfl⟩ := hostLoadBytes_next h
    exact (State.inv_iff _).2 ⟨hbuf.write (by rwa [Nat.zero_add]), hout⟩
  | writeOut c vs =>
    obtain ⟨hle, rfl⟩ := hostWriteOut_next h
    exact (State.inv_iff _).2 ⟨hbuf, hout.writeWords hle⟩
  | setBufLen | setOutCap =>
    cases h
    exact hs
  | reset =>
    cases h
    exact invariantHoldsAtReset
  | resetDuring cmd =>
    cases h
    exact (State.inv_iff _).2 ⟨hbuf, hout.erase _ _⟩
  | touchDuring | overstated => cases h

/-- Settles O52, by the event at the port; an idle step changes nothing. -/
theorem everyStepKeepsTheInvariant : Obligations.EveryStepKeepsTheInvariant := by
  intro s t hs h
  cases hport : s.port with
  | nil =>
    rw [step, hport] at h
    cases h
    exact hs
  | cons e rest =>
    rw [step_event hport] at h
    exact runEvent_keeps_inv (s := s.accept rest) hs h

/-! A byte slice as `BUF` (R32). -/

/-- A byte slice of whole words within the index space becomes the bytes of `BUF` from address 0. -/
theorem hostLoadBytes_of_le {bs : List Byte} (s : State) (hmod : bs.length % 4 = 0)
    (hle : bs.length ≤ 4 * Config.maxUnits) :
    hostLoadBytes bs s = .next { s with buf := s.buf.write 0 bs } := by
  rw [hostLoadBytes, if_neg (not_not.2 hmod), if_pos hle]

/-- The block reads a loaded byte slice at its own addresses. -/
theorem State.bufByte_loaded (s : State) {bs : List Byte} {a : Nat} (h : a < bs.length) :
    { s with buf := s.buf.write 0 bs }.bufByte a = bs[a] := by
  have hin : 0 ≤ a ∧ a < 0 + bs.length := by omega
  rw [State.bufByte, Memory.read?_write, if_pos hin, Nat.sub_zero, List.getElem?_eq_getElem h, Option.getD_some]

/-- The bits of a word made of four bytes run on from byte to byte, most significant first (R32). -/
theorem wordOfBytes_getLsbD (b : Nat → Byte) {q : Nat} (hq : q < 32) :
    (wordOfBytes (b 0) (b 1) (b 2) (b 3)).getLsbD (31 - q) = (b (q / 8)).getLsbD (7 - q % 8) := by
  have hidx (r : Nat) (hr : q / 8 = r) : 31 - q - 8 * (3 - r) = 7 - q % 8 := by omega
  simp only [wordOfBytes, BitVec.getLsbD_append]
  obtain h | h | h | h : q / 8 = 0 ∨ q / 8 = 1 ∨ q / 8 = 2 ∨ q / 8 = 3 := by omega
  · rw [if_neg (by omega), if_neg (by omega), if_neg (by omega), h, ← hidx 0 h, Nat.sub_sub, Nat.sub_sub]
  · rw [if_neg (by omega), if_neg (by omega), if_pos (by omega), h, ← hidx 1 h, Nat.sub_sub]
  · rw [if_neg (by omega), if_pos (by omega), h, ← hidx 2 h]
  · rw [if_pos (by omega), h, ← hidx 3 h, Nat.sub_self, Nat.mul_zero, Nat.sub_zero]

/-- Logical bit `p` of `BUF` is bit `7 - p mod 8` of the byte at address `p div 8` (R32). -/
theorem State.streamBool_memRead (s : State) (p : Nat) :
    streamBool s.memRead p = (s.bufByte (p / 8)).getLsbD (7 - p % 8) := by
  have hbit := wordOfBytes_getLsbD (fun r => s.bufByte (4 * (p / 32) + r)) (Nat.mod_lt p (by decide : 0 < 32))
  have hbyte : 4 * (p / 32) + p % 32 / 8 = p / 8 := by omega
  have hpos : p % 32 % 8 = p % 8 := by omega
  rw [hbyte, hpos] at hbit
  exact hbit

/-- Settles O4, by reading the loaded bytes: four make a word, and each logical bit is a bit of one. -/
theorem byteSliceIsBigEndian : Obligations.ByteSliceIsBigEndian := by
  intro s bs rest hport hmod hle
  rw [step_event hport]
  refine ⟨_, hostLoadBytes_of_le _ hmod hle, rfl, fun j h => ?_, fun p h => ?_⟩
  · rw [State.memRead, wordOfBytes_toNat, State.bufByte_loaded _ (by omega), State.bufByte_loaded _ (by omega),
      State.bufByte_loaded _ (by omega), State.bufByte_loaded _ h]
  · rw [streamBit_toNat, State.streamBool_memRead, State.bufByte_loaded _ h, BitVec.getLsbD, Nat.toNat_testBit]

/-! A field as a number (R33). -/

theorem readBits_toNat_lt (buf : Nat → Word) (p : Nat) {w : Nat} (hw : w ≤ 32) :
    (readBits buf p w).toNat < 2 ^ w :=
  toNat_lt_of_getLsbD _ w fun k hk => by simp [readBits_getLsbD buf p w k hw, Nat.not_lt.2 hk]

/-- One more bit of a field doubles its value and adds the bit (R120). -/
theorem readBits_succ_toNat (buf : Nat → Word) (p : Nat) {w : Nat} (hw : w < 32) :
    (readBits buf p (w + 1)).toNat = (readBits buf p w).toNat * 2 + (streamBit buf (p + w)).toNat := by
  have hfield : (readBits buf p w).toNat < 2 ^ 31 :=
    (readBits_toNat_lt buf p (by omega)).trans_le (Nat.pow_le_pow_right (by omega) (by omega))
  have hbit : (streamBit buf (p + w)).toNat < 2 ^ 1 := by rw [streamBit_toNat]; exact Bool.toNat_lt _
  rw [readBits, BitVec.toNat_or, BitVec.toNat_shiftLeft, Nat.mod_eq_of_lt (by rw [Nat.shiftLeft_eq]; omega),
    ← Nat.shiftLeft_add_eq_or_of_lt hbit, Nat.shiftLeft_eq, pow_one]

/-- The value of up to 32 bits of the stream, the first the most significant. -/
theorem readBits_toNat (buf : Nat → Word) (p : Nat) {w : Nat} (hw : w ≤ 32) :
    (readBits buf p w).toNat = ∑ t ∈ Finset.range w, (streamBit buf (p + t)).toNat * 2 ^ (w - 1 - t) := by
  induction w with
  | zero => rfl
  | succ w ih =>
    rw [readBits_succ_toNat buf p hw, ih (by omega), Finset.sum_range_succ, Finset.sum_mul]
    congr 1
    · refine Finset.sum_congr rfl fun t ht => ?_
      have hexp : w + 1 - 1 - t = w - 1 - t + 1 := by have := Finset.mem_range.1 ht; omega
      rw [hexp, pow_succ, mul_assoc]
    · simp

/-- Settles O5: a legal width is at most 32. -/
theorem fieldIsItsBitsMostSignificantFirst : Obligations.FieldIsItsBitsMostSignificantFirst :=
  fun buf _ _ hw => readBits_toNat buf _ (hw.2.trans (by decide))

/-! Every value a command delivers is `read_bits` of the stream (R102, R111, R122). -/

/-- Logical bit `32 * j + r` is bit `31 - r` of word `j` (R31). -/
theorem streamBool_of_eq (buf : Nat → Word) {p j r : Nat} (hp : p = 32 * j + r) (hr : r < 32) :
    streamBool buf p = (buf j).getLsbD (31 - r) := by
  have hj : p / 32 = j := by omega
  have hr' : p % 32 = r := by omega
  rw [streamBool, hj, hr']

/-- A field that lies in one word is cut out of it by shift and mask (R74, R92). -/
theorem extract_eq_readBits (buf : Nat → Word) {w i : Nat} (hw : legalWidth w) (h : (offset w i).2 + w ≤ 32) :
    extract (buf (offset w i).1) (fieldShift w i) w = readBits buf (i * w) w := by
  have hw' : w ≤ 31 := hw.2
  simp only [offset, fieldShift] at h ⊢
  refine BitVec.eq_of_getLsbD_eq fun k _ => ?_
  rw [extract_getLsbD _ _ _ _ hw', readBits_getLsbD _ _ _ _ (by omega)]
  rcases Nat.lt_or_ge k w with hk | hk
  · rw [streamBool_of_eq buf (j := i * w / 32) (r := i * w % 32 + (w - 1 - k)) (by omega) (by omega)]
    congr 2
    omega
  · simp [Nat.not_lt.2 hk]

/-- The fix-up of a field that crosses the end of its first word is the field (R102). -/
theorem fixup_eq_readBits (buf : Nat → Word) {w i : Nat} (hw : legalWidth w) (h : 32 < (offset w i).2 + w) :
    fixup buf (offset w i).1 ((offset w i).1 + 1) (highBits w i) (lowBits w i) = readBits buf (i * w) w := by
  have hw' : w ≤ 31 := hw.2
  simp only [offset, highBits, lowBits] at h ⊢
  refine BitVec.eq_of_getLsbD_eq fun k _ => ?_
  rw [fixup_getLsbD _ _ _ _ _ _ (by omega), readBits_getLsbD _ _ _ _ (by omega)]
  have hsum : 32 - i * w % 32 + (i * w % 32 + w - 32) = w := by omega
  rw [hsum]
  split
  next hlow =>
    rw [streamBool_of_eq buf (j := i * w / 32 + 1) (r := i * w % 32 + (w - 1 - k) - 32) (by omega) (by omega),
      decide_eq_true (by omega), Bool.true_and]
    congr 1
    omega
  next hhigh =>
    rcases Nat.lt_or_ge k w with hk | hk
    · rw [streamBool_of_eq buf (j := i * w / 32) (r := i * w % 32 + (w - 1 - k)) (by omega) (by omega)]
      congr 2
      omega
    · simp [Nat.not_lt.2 hk]

theorem unpackOne_eq_readBits (buf : Nat → Word) {w : Nat} (i : Nat) (hw : legalWidth w) :
    unpackOne buf w i = readBits buf (i * w) w := by
  rw [unpackOne]
  split
  next h => exact extract_eq_readBits buf hw h
  next h => exact fixup_eq_readBits buf hw (Nat.not_le.1 h)

/-- A lane of a batch is its fix-up where it straddles and its bulk value elsewhere (R110). -/
theorem unpackBatch_getElem (words : Nat → Word) (plan : LayoutPlan) (l : Fin 32) :
    (unpackBatch words plan)[l] =
      if plan.lanes[l].straddle then
        fixup words plan.lanes[l].w0.toNat plan.lanes[l].w1.toNat plan.lanes[l].hb.toNat plan.lanes[l].lb.toNat
      else extract (words plan.lanes[l].word.toNat) plan.lanes[l].shift.toNat plan.w.toNat := by
  simp only [Fin.getElem_fin]
  cases hparts : plan.lanes[l.val].parts with
  | none => simp [unpackBatch, bulk, LanePlan.straddle, hparts]
  | some p => simp [unpackBatch, LanePlan.straddle, LanePlan.w0, LanePlan.w1, LanePlan.hb, LanePlan.lb, hparts]

/-- The lanes of a batch are the first fields of its words (R111): the plan's fields are the offset calculator's
numbers (R77). -/
theorem unpackBatch_layout_getElem (words : Nat → Word) {w : Nat} (hw : legalWidth w) (l : Fin 32) :
    (unpackBatch words (layout w))[l] = readBits words (l * w) w := by
  simp only [unpackBatch_getElem, layout_lanes_getElem, lanePlan_straddle_iff]
  split
  next h =>
    obtain ⟨-, -, hw0, hw1, hhb, hlb⟩ := lanePlan_toNat_of_lt hw l.isLt h
    rw [hw0, hw1, hhb, hlb, fixup_eq_readBits words hw h]
  next h =>
    have hle := Nat.not_lt.1 h
    have hword := offset_word_le hw l.isLt
    have hwidth : (layout w).w.toNat = w := toNat_planField (Nat.lt_succ_of_le hw.2)
    have hshift : fieldShift w l < 32 := by
      have hpos : 1 ≤ w := hw.1
      rw [fieldShift]
      omega
    rw [lanePlan_of_le hle, hwidth, toNat_planField (by omega), toNat_planField hshift,
      extract_eq_readBits words hw hle]

/-- A view of the words from `c` on has the stream's bits from `32 * c` on. -/
theorem streamBit_add_words (buf : Nat → Word) (c p : Nat) :
    streamBit (fun m => buf (c + m)) p = streamBit buf (32 * c + p) := by
  have hword : (32 * c + p) / 32 = c + p / 32 := by omega
  have hbit : (32 * c + p) % 32 = p % 32 := by omega
  rw [streamBit, streamBit, hword, hbit]

/-- `read_bits` looks at the bits of its field only (R120). -/
theorem readBits_congr {buf buf' : Nat → Word} {p p' w : Nat}
    (h : ∀ q < w, streamBit buf' (p' + q) = streamBit buf (p + q)) : readBits buf' p' w = readBits buf p w := by
  induction w with
  | zero => rfl
  | succ w ih => rw [readBits, readBits, ih fun q hq => h q (by omega), h w (by omega)]

/-- The fields `i`, `i + 1`, …, of which there are `n`, as DECODE and UNPACK_BATCH have to deliver them. -/
def fields (buf : Nat → Word) (w i n : Nat) : List Word :=
  (List.range' i n).map fun i => readBits buf (i * w) w

theorem fields_append (buf : Nat → Word) (w i m n : Nat) :
    fields buf w i m ++ fields buf w (i + m) n = fields buf w i (m + n) := by
  rw [fields, fields, fields, ← List.map_append, List.range'_append_1]

/-- Batch `k` delivers the fields from `32 * k` on (R37). -/
theorem State.batchValues_eq_fields (s : State) {w : Nat} (k : Nat) (hw : legalWidth w) :
    s.batchValues w k = fields s.memRead w (32 * k) 32 := by
  refine List.ext_getElem (by simp [fields]) fun l hl _ => ?_
  rw [State.batchValues_length] at hl
  have hlane := unpackBatch_layout_getElem (fun m => s.memRead (k * w + m)) hw ⟨l, hl⟩
  have hpos : 32 * (k * w) + l * w = (32 * k + l) * w := by ring
  have hfield : readBits (fun m => s.memRead (k * w + m)) (l * w) w = readBits s.memRead ((32 * k + l) * w) w :=
    readBits_congr fun q _ => by rw [streamBit_add_words, ← Nat.add_assoc, hpos]
  simpa [State.batchValues, fields, ← hfield] using hlane

/-- The whole batches deliver the fields before the remainder (R132). -/
theorem State.batches_eq_fields (s : State) {w : Nat} (b : Nat) (hw : legalWidth w) :
    (List.range b).flatMap (s.batchValues w) = fields s.memRead w 0 (32 * b) := by
  induction b with
  | zero => rfl
  | succ b ih =>
    rw [List.range_succ, List.flatMap_append, ih, List.flatMap_singleton, s.batchValues_eq_fields b hw,
      Nat.mul_succ, ← fields_append, Nat.zero_add]

/-- DECODE delivers the first `n` fields, in order (R130). -/
theorem State.decodeValues_eq_fields (s : State) {w : Nat} (n : Nat) (hw : legalWidth w) :
    s.decodeValues w n = fields s.memRead w 0 n := by
  have hrest : (List.range' (32 * (n / 32)) (n % 32)).map (unpackOne s.memRead w) =
      fields s.memRead w (0 + 32 * (n / 32)) (n % 32) := by
    rw [Nat.zero_add]
    exact List.map_congr_left fun i _ => unpackOne_eq_readBits s.memRead i hw
  rw [State.decodeValues, s.batches_eq_fields _ hw, hrest, fields_append, Nat.div_add_mod]

/-- Fields that end at or before bit `N` depend on no bit from `N` on. -/
theorem fields_congr {buf buf' : Nat → Word} {w i n N : Nat} (hN : (i + n) * w ≤ N)
    (h : ∀ p < N, streamBit buf' p = streamBit buf p) : fields buf' w i n = fields buf w i n := by
  refine List.map_congr_left fun f hf => readBits_congr fun q hq => h _ ?_
  have hf' : f + 1 ≤ i + n := (List.mem_range'_1.1 hf).2
  have hend : (f + 1) * w ≤ (i + n) * w := Nat.mul_le_mul_right w hf'
  rw [Nat.succ_mul] at hend
  omega

/-! What a command depends on: the bits of `BUF` it needs (R34, R40) and no response (R42). -/

/-- A state whose `BUF` is replaced has the same outcome but for `BUF`, when the effect is so after checks that
pass: the checks look at no memory (R147). -/
theorem exec_setBuf {i : Instr} {s t : State} {b : Memory}
    (heffect : Instr.check i s = .ok → Instr.effect i { s with buf := b } = { Instr.effect i s with buf := b })
    (h : exec i s = .next t) : exec i { s with buf := b } = .next { t with buf := b } := by
  have hcheck : Instr.check i { s with buf := b } = Instr.check i s := Instr.check_congr i s _ rfl rfl
  obtain ⟨hok, rfl⟩ | ⟨herr, rfl⟩ := exec_inv h
  · rw [exec_of_ok (hcheck.trans hok), heffect hok]
    rfl
  · rw [exec_of_error (hcheck ▸ herr), hcheck]
    rfl

/-- DECODE's effect depends on the bits of `BUF` below `n * w` only (R136). -/
theorem effect_decode_setBuf {w n : Nat} {s : State} {b : Memory} (hw : legalWidth w)
    (h : ∀ p < n * w, streamBit { s with buf := b }.memRead p = streamBit s.memRead p) :
    Instr.effect (.decode w n) { s with buf := b } = { Instr.effect (.decode w n) s with buf := b } := by
  have hvalues : { s with buf := b }.decodeValues w n = s.decodeValues w n := by
    rw [State.decodeValues_eq_fields _ n hw, State.decodeValues_eq_fields _ n hw]
    exact fields_congr (by rw [Nat.zero_add]) h
  rw [Instr.effect, hvalues]
  rfl

/-- Settles O6: the checks look at no bit, and the effect at bits below `n * w` only. -/
theorem trailingBitsAreIgnored : Obligations.TrailingBitsAreIgnored :=
  fun w n s _ _ hbits h =>
    exec_setBuf (fun hok => effect_decode_setBuf ((decodeCheck_ok w n s).1 hok).1 hbits) h

/-- UNPACK_ONE's effect depends on the bits of `BUF` up to its field's last only (R125). -/
theorem effect_unpackOne_setBuf {w i : Nat} {s : State} {b : Memory} (hw : legalWidth w)
    (h : ∀ p < (i + 1) * w, streamBit { s with buf := b }.memRead p = streamBit s.memRead p) :
    Instr.effect (.unpackOne w i) { s with buf := b } = { Instr.effect (.unpackOne w i) s with buf := b } := by
  have hvalue : unpackOne { s with buf := b }.memRead w i = unpackOne s.memRead w i := by
    rw [unpackOne_eq_readBits _ i hw, unpackOne_eq_readBits _ i hw]
    exact readBits_congr fun q hq => h _ (by rw [Nat.succ_mul]; omega)
  rw [Instr.effect, hvalue]
  rfl

/-- UNPACK_BATCH's effect depends on the bits of `BUF` up to its batch's last only (R37). -/
theorem effect_unpackBatch_setBuf {w k : Nat} {s : State} {b : Memory} (hw : legalWidth w)
    (h : ∀ p < 32 * ((k + 1) * w), streamBit { s with buf := b }.memRead p = streamBit s.memRead p) :
    Instr.effect (.unpackBatch w k) { s with buf := b } = { Instr.effect (.unpackBatch w k) s with buf := b } := by
  have hvalues : { s with buf := b }.batchValues w k = s.batchValues w k := by
    rw [State.batchValues_eq_fields _ k hw, State.batchValues_eq_fields _ k hw]
    exact fields_congr (by rw [← Nat.mul_succ, Nat.mul_assoc]) h
  rw [Instr.effect, hvalues]
  rfl

/-- Checks that pass find every bit the command needs in the first `BUF_LEN` words, so its effect depends on these
only (R40, R142). -/
theorem Instr.effect_setBuf {i : Instr} {s : State} {b : Memory} (hok : Instr.check i s = .ok)
    (h : ∀ j < s.bufLen.toNat, { s with buf := b }.memRead j = s.memRead j) :
    Instr.effect i { s with buf := b } = { Instr.effect i s with buf := b } := by
  have hbit (p : Nat) (hp : p < 32 * s.bufLen.toNat) :
      streamBit { s with buf := b }.memRead p = streamBit s.memRead p := by
    rw [streamBit, streamBit, h (p / 32) (by omega)]
  cases i with
  | layout w => rfl
  | unpackOne w f =>
    obtain ⟨hw, hbits⟩ := (unpackOneCheck_ok w f s).1 hok
    exact effect_unpackOne_setBuf hw fun p hp => hbit p (hp.trans_le hbits)
  | unpackBatch w k =>
    obtain ⟨hw, hwords, -⟩ := (unpackBatchCheck_ok w k s).1 hok
    exact effect_unpackBatch_setBuf hw fun p hp => hbit p (hp.trans_le (Nat.mul_le_mul_left 32 hwords))
  | decode w n =>
    obtain ⟨hw, hbits, -⟩ := (decodeCheck_ok w n s).1 hok
    exact effect_decode_setBuf hw fun p hp => hbit p (hp.trans_le hbits)

/-- A command's effect leaves the bytes of `OUT` outside its target cells as they were (R37, R161). -/
theorem Instr.effect_out_read?_outside {i : Instr} {s : State} {a : Nat}
    (ha : a < 4 * (Instr.target i).1 ∨ 4 * (Instr.target i).2 ≤ a) :
    (Instr.effect i s).out.read? a = s.out.read? a := by
  obtain heq | ⟨vs, heq, hlen⟩ := Instr.effect_out i s
  · rw [heq]
  · rw [heq, Memory.read?_writeWords_outside _ _ _ _ (by rwa [hlen])]

/-- Settles O7: the target ends at or before `OUT_CAP`, and the effect depends on the words below `BUF_LEN`. -/
theorem noCommandReachesOutOfBounds : Obligations.NoCommandReachesOutOfBounds := by
  intro i s t h
  refine ⟨fun a ha => ?_, fun b hb => exec_setBuf (fun hok => Instr.effect_setBuf hok hb) h⟩
  obtain ⟨hok, rfl⟩ | ⟨-, rfl⟩ := exec_inv h
  · have htarget := Instr.target_le hok
    exact Instr.effect_out_read?_outside (.inr (by omega))
  · rfl

/-- Inside the stored range a byte does not depend on what the memory held before. -/
theorem Memory.read?_writeWords_inside (m m' : Memory) {c : Nat} {vs : List Word} {a : Nat} (hlo : 4 * c ≤ a)
    (hhi : a < 4 * (c + vs.length)) :
    (m'.write (4 * c) (bytesOfWords vs)).read? a = (m.write (4 * c) (bytesOfWords vs)).read? a := by
  have hin : 4 * c ≤ a ∧ a < 4 * c + (bytesOfWords vs).length := by rw [bytesOfWords_length]; omega
  rw [Memory.read?_write, Memory.read?_write, if_pos hin, if_pos hin]

/-- What a command leaves in its target cells does not depend on the responses before it (R42). -/
theorem Instr.effect_out_read?_target (i : Instr) (s : State) (o : Memory) (st : Status) (r : Word)
    (p : LayoutPlan) {a : Nat} (hlo : 4 * (Instr.target i).1 ≤ a) (hhi : a < 4 * (Instr.target i).2) :
    (Instr.effect i { s with out := o, status := st, result := r, plan := p }).out.read? a =
      (Instr.effect i s).out.read? a := by
  cases i with
  | layout | unpackOne => exact absurd hhi (Nat.not_lt_zero a)
  | unpackBatch w k =>
    exact Memory.read?_writeWords_inside s.out o hlo (by rwa [State.batchValues_length])
  | decode w n =>
    exact Memory.read?_writeWords_inside s.out o hlo (by rwa [State.decodeValues_length, Nat.zero_add])

/-- Settles O8: the checks look at no response, and what the effect delivers is computed from `BUF` alone. -/
theorem noCommandReadsTheResponses : Obligations.NoCommandReadsTheResponses := by
  intro i s t t' o st r p h h'
  have hcheck : Instr.check i { s with out := o, status := st, result := r, plan := p } = Instr.check i s :=
    Instr.check_congr i s _ rfl rfl
  obtain ⟨hok, rfl⟩ | ⟨herr, rfl⟩ := exec_inv h
  · rw [exec_of_ok (hcheck.trans hok)] at h'
    cases h'
    exact ⟨rfl, fun _ w f hi => by subst hi; rfl, fun _ w hi => by subst hi; rfl,
      fun _ a hlo hhi => Instr.effect_out_read?_target i s o st r p hlo hhi⟩
  · rw [exec_of_error (hcheck ▸ herr)] at h'
    cases h'
    exact ⟨hcheck, fun hok => absurd hok herr, fun hok => absurd hok herr, fun hok => absurd hok herr⟩

end Sys2Proof.Machine

/-! Proofs of the statements on the encoding (30_encoding.md): the decoder as a condition on the four fields, the
encoder as its inverse, the fixed bits of each row, and the words that are illegal. -/

namespace Sys2Proof

/-! The decoder and the encoder. -/

/-- The reserved bits as a condition on the word's number (R55). -/
theorem CmdWord.rsvField_eq_zero_iff (cmd : CmdWord) :
    CmdWord.rsvField cmd = 0 ↔ cmd.toNat / 2 ^ 40 % 2 ^ 20 = 0 := by
  rw [← BitVec.toNat_inj, CmdWord.rsvField_toNat]
  rfl

/-- A word is the command `i` exactly when its reserved bits are 0 and its other three fields are the operation code
and the operands of `i` (R55 to R57). -/
theorem decodeWord_ok_iff (cmd : CmdWord) (i : Instr) :
    decodeWord cmd = .ok i ↔
      CmdWord.rsvField cmd = 0 ∧ (CmdWord.opField cmd).toNat = i.op ∧
        (CmdWord.widthField cmd).toNat = i.width ∧ (CmdWord.argField cmd).toNat = i.arg := by
  constructor
  · intro h
    obtain ⟨hrsv, ⟨hop, harg, rfl⟩ | ⟨hop, rfl⟩ | ⟨hop, rfl⟩ | ⟨hop, rfl⟩⟩ := decodeWord_ok h
    · exact ⟨hrsv, congrArg BitVec.toNat hop, rfl, harg⟩
    all_goals exact ⟨hrsv, congrArg BitVec.toNat hop, rfl, rfl⟩
  · rintro ⟨hrsv, hop, hwidth, harg⟩
    have hop : CmdWord.opField cmd = BitVec.ofNat 4 i.op := by rw [← hop, BitVec.ofNat_toNat, BitVec.setWidth_eq]
    simp only [decodeWord, hrsv, hop, hwidth, harg]
    cases i <;> rfl

/-- Settles O9: the number of the encoded word, divided into the four fields, gives the operation code and the
operands back. -/
theorem decodeOfEncodeIsTheCommand : Obligations.DecodeOfEncodeIsTheCommand := by
  intro i h
  have hword := encode_toNat i h
  obtain ⟨hwidth, harg⟩ : i.width < 2 ^ 8 ∧ i.arg < 2 ^ 32 := h
  rw [decodeWord_ok_iff, CmdWord.rsvField_eq_zero_iff, CmdWord.opField_toNat, CmdWord.widthField_toNat,
    CmdWord.argField_toNat]
  omega

/-- Settles O10: the operands are fields of the word, so they fit; and the word is the sum of its fields. -/
theorem encodeOfDecodeIsTheWord : Obligations.EncodeOfDecodeIsTheWord := by
  intro cmd i h
  obtain ⟨hrsv, hop, hwidth, harg⟩ := (decodeWord_ok_iff cmd i).1 h
  have hwf : i.WellFormed := ⟨hwidth.symm.trans_lt (BitVec.isLt _), harg.symm.trans_lt (BitVec.isLt _)⟩
  refine ⟨hwf, BitVec.eq_of_toNat_eq ?_⟩
  rw [encode_toNat i hwf, CmdWord.toNat_eq_fields cmd, hrsv, hop, hwidth, harg]
  simp

/-- Settles O12, field by field. -/
theorem operandsAreTheFields : Obligations.OperandsAreTheFields := by
  intro cmd i h
  obtain ⟨-, hop, hwidth, harg⟩ := (decodeWord_ok_iff cmd i).1 h
  rw [← hop, ← hwidth, ← harg]
  exact ⟨CmdWord.widthField_toNat cmd, CmdWord.argField_toNat cmd, CmdWord.opField_toNat cmd⟩

/-! The fixed bits of each row (R56). -/

/-- The mask of the rows with an `ARG` operand fixes `RSV` at 0 and `OP` at the row's code. -/
theorem and_highMask_eq_iff {cmd m : CmdWord} {op : Nat} (hm : m.toNat = op * 2 ^ 60) :
    cmd &&& 0xFFFFFF0000000000#64 = m ↔ CmdWord.rsvField cmd = 0 ∧ (CmdWord.opField cmd).toNat = op := by
  rw [← BitVec.toNat_inj, Laws.and_high_mask, hm, CmdWord.rsvField_eq_zero_iff, CmdWord.opField_toNat]
  omega

/-- The mask of LAYOUT's row fixes `ARG` at 0 as well. -/
theorem and_layoutMask_eq_iff {cmd m : CmdWord} {op : Nat} (hm : m.toNat = op * 2 ^ 60) :
    cmd &&& 0xFFFFFF00FFFFFFFF#64 = m ↔
      CmdWord.rsvField cmd = 0 ∧ (CmdWord.opField cmd).toNat = op ∧ (CmdWord.argField cmd).toNat = 0 := by
  rw [← BitVec.toNat_inj, Laws.and_layout_mask, hm, CmdWord.rsvField_eq_zero_iff, CmdWord.opField_toNat,
    CmdWord.argField_toNat]
  omega

/-- A row `mk` whose two operands are free: a word is one of its commands exactly when the masked bits are its
match. -/
theorem exists_decodeWord_iff_and_highMask (cmd : CmdWord) {mk : Nat → Nat → Instr} {op : Nat} {m : CmdWord}
    (hop : ∀ w a, (mk w a).op = op) (hwidth : ∀ w a, (mk w a).width = w) (harg : ∀ w a, (mk w a).arg = a)
    (hm : m.toNat = op * 2 ^ 60) :
    (∃ w a, decodeWord cmd = .ok (mk w a)) ↔ cmd &&& 0xFFFFFF0000000000#64 = m := by
  simp only [decodeWord_ok_iff, hop, hwidth, harg, and_highMask_eq_iff hm]
  constructor
  · rintro ⟨_, _, hrsv, hcode, -, -⟩
    exact ⟨hrsv, hcode⟩
  · rintro ⟨hrsv, hcode⟩
    exact ⟨_, _, hrsv, hcode, rfl, rfl⟩

/-- A word is a LAYOUT exactly when the bits its row fixes are its match. -/
theorem exists_decodeWord_layout_iff (cmd : CmdWord) :
    (∃ w, decodeWord cmd = .ok (.layout w)) ↔ cmd &&& 0xFFFFFF00FFFFFFFF#64 = 0x1000000000000000#64 := by
  rw [and_layoutMask_eq_iff (op := 1) rfl]
  simp only [decodeWord_ok_iff]
  constructor
  · rintro ⟨_, hrsv, hcode, -, harg⟩
    exact ⟨hrsv, hcode, harg⟩
  · rintro ⟨hrsv, hcode, harg⟩
    exact ⟨_, hrsv, hcode, rfl, harg⟩

/-- Settles O11, row by row: the decoder and the mask put the same condition on the fields. -/
theorem matchAndMaskSelectTheCommand : Obligations.MatchAndMaskSelectTheCommand := fun cmd =>
  ⟨exists_decodeWord_layout_iff cmd,
    exists_decodeWord_iff_and_highMask cmd (op := 2) (fun _ _ => rfl) (fun _ _ => rfl) (fun _ _ => rfl) rfl,
    exists_decodeWord_iff_and_highMask cmd (op := 3) (fun _ _ => rfl) (fun _ _ => rfl) (fun _ _ => rfl) rfl,
    exists_decodeWord_iff_and_highMask cmd (op := 4) (fun _ _ => rfl) (fun _ _ => rfl) (fun _ _ => rfl) rfl⟩

/-! The assembler (R61). -/

/-- Fields that do not overlap are put together by `|` as by `+`. -/
theorem fields_or_eq_add (op : Nat) {w a : Nat} (hw : w < 2 ^ 8) (ha : a < 2 ^ 32) :
    op <<< 60 ||| w <<< 32 ||| a = op * 2 ^ 60 + w * 2 ^ 32 + a := by
  have hlow : w <<< 32 + a < 2 ^ 60 := by
    rw [Nat.shiftLeft_eq]
    omega
  rw [Nat.or_assoc, ← Nat.shiftLeft_add_eq_or_of_lt ha, ← Nat.shiftLeft_add_eq_or_of_lt hlow, Nat.shiftLeft_eq,
    Nat.shiftLeft_eq, Nat.add_assoc]

/-- Settles O15, by whether the operands fit their fields. -/
theorem assembledWordsAreTheFormula : Obligations.AssembledWordsAreTheFormula := fun i =>
  ⟨fun h => ⟨encode i, if_pos h, by rw [encode_toNat i h, fields_or_eq_add i.op h.1 h.2]⟩, fun h => if_neg h⟩

end Sys2Proof

namespace Sys2Proof.Machine

/-! Illegal words (R58) and the status codes (R60). -/

/-- A word is legal exactly when it decodes: its `RSV` is 0, its `OP` is one of the four codes, and LAYOUT's `ARG`
is 0. -/
theorem exists_decodeWord_ok_iff (cmd : CmdWord) : (∃ i, decodeWord cmd = .ok i) ↔ ¬ IllegalWord cmd := by
  constructor
  · rintro ⟨i, h⟩
    obtain ⟨hrsv, ⟨hop, harg, -⟩ | ⟨hop, -⟩ | ⟨hop, -⟩ | ⟨hop, -⟩⟩ := decodeWord_ok h
    · have harg : CmdWord.argField cmd = 0 := BitVec.eq_of_toNat_eq harg
      simp [hrsv, hop, harg]
    all_goals simp [hrsv, hop]
  · intro h
    simp only [not_or, not_and, not_not, not_le] at h
    obtain ⟨⟨hpos, hlt⟩, hrsv, hlayout⟩ := h
    have hpos : (CmdWord.opField cmd).toNat ≠ 0 := fun h0 => hpos (BitVec.eq_of_toNat_eq h0)
    obtain hop | hop | hop | hop : (CmdWord.opField cmd).toNat = 1 ∨ (CmdWord.opField cmd).toNat = 2 ∨
        (CmdWord.opField cmd).toNat = 3 ∨ (CmdWord.opField cmd).toNat = 4 := by omega
    · have harg := congrArg BitVec.toNat (hlayout (BitVec.eq_of_toNat_eq hop))
      exact ⟨.layout _, (decodeWord_ok_iff _ _).2 ⟨hrsv, hop, rfl, harg⟩⟩
    · exact ⟨.unpackOne _ _, (decodeWord_ok_iff _ _).2 ⟨hrsv, hop, rfl, rfl⟩⟩
    · exact ⟨.unpackBatch _ _, (decodeWord_ok_iff _ _).2 ⟨hrsv, hop, rfl, rfl⟩⟩
    · exact ⟨.decode _ _, (decodeWord_ok_iff _ _).2 ⟨hrsv, hop, rfl, rfl⟩⟩

/-- The decoder refuses exactly the words of R58. -/
theorem exists_decodeWord_error_iff (cmd : CmdWord) : (∃ r, decodeWord cmd = .error r) ↔ IllegalWord cmd := by
  rw [← not_iff_not, ← exists_decodeWord_ok_iff]
  cases decodeWord cmd <;> simp

/-- A step that takes an illegal word raises `IllegalCommand` (R58, R144). -/
theorem step_of_illegalWord {cmd : CmdWord} {s : State} {rest : List HostEvent} (h : IllegalWord cmd)
    (hport : Issues s cmd rest) : step s = .next ((s.accept rest).raise .illegalCommand) := by
  obtain ⟨r, hr⟩ := (exists_decodeWord_error_iff cmd).2 h
  exact (step_event hport).trans (runCommand_error hr _)

/-- Settles O13: the decoder refuses what does not decode, and raising an error changes `STATUS` only. -/
theorem illegalWordsRaiseIllegalCommand : Obligations.IllegalWordsRaiseIllegalCommand := fun cmd =>
  ⟨exists_decodeWord_error_iff cmd, fun h _ _ hport => ⟨step_of_illegalWord h hport, rfl⟩⟩

/-- Settles O14, status by status. -/
theorem statusCodesAreZeroToFour : Obligations.StatusCodesAreZeroToFour :=
  ⟨rfl, rfl, rfl, rfl, rfl, fun st => by cases st <;> decide⟩

end Sys2Proof.Machine

/-! Proofs of the statements on the offset calculator (40_offset_calculator.md): when a field straddles, the shift and
the parts of a field, the plan of a batch and its straddling lanes, and the command LAYOUT. -/

namespace Sys2Proof.Machine

/-! When a field straddles (R72, R73). -/

/-- A field straddles exactly when it crosses the end of its first word (R72). -/
theorem straddles_iff {w : Nat} (i : Nat) (hw : legalWidth w) :
    straddles w i = true ↔ 32 < (offset w i).2 + w := by
  obtain ⟨hlo, hhi⟩ : 1 ≤ w ∧ w ≤ 31 := hw
  rw [straddles, decide_eq_true_iff, offset, Nat.succ_mul]
  omega

theorem straddles_eq_false_iff {w : Nat} (i : Nat) (hw : legalWidth w) :
    straddles w i = false ↔ (offset w i).2 + w ≤ 32 := by
  rw [← Bool.not_eq_true, straddles_iff i hw, Nat.not_lt]

/-- Fewer than 32 bits of a field's first word precede it (R71). -/
theorem offset_bit_lt (w i : Nat) : (offset w i).2 < 32 := Nat.mod_lt _ (by decide)

/-- Settles O17: both corner cases are ones of `o + w > 32`. -/
theorem straddlingIsCrossingTheWordEnd : Obligations.StraddlingIsCrossingTheWordEnd := fun w i hw =>
  ⟨decide_eq_true_iff, straddles_iff i hw, fun h => (straddles_eq_false_iff i hw).2 h.le,
    (straddles_eq_false_iff i (by decide)).2 (offset_bit_lt 1 i)⟩

/-- `k` fields fill whole words exactly when `k` is a multiple of the period (R73). -/
theorem dvd_mul_width_iff (w k : Nat) : 32 ∣ k * w ↔ 32 / Nat.gcd 32 w ∣ k := by
  rw [Nat.div_dvd_iff_dvd_mul (Nat.gcd_dvd_left 32 w) (Nat.gcd_pos_of_pos_left w (by decide)), Nat.mul_comm _ k,
    Nat.dvd_mul_gcd_iff_dvd_mul]

/-- The bit offset repeats with the period (R73). -/
theorem offset_bit_eq_of_modEq {w i j : Nat} (h : i ≡ j [MOD 32 / Nat.gcd 32 w]) :
    (offset w i).2 = (offset w j).2 :=
  (h.mul_right' w).of_dvd ((dvd_mul_width_iff w _).2 dvd_rfl)

/-- Settles O18: the period divides 32, and straddling is a condition on the bit offset. -/
theorem straddlingRepeatsWithThePeriod : Obligations.StraddlingRepeatsWithThePeriod := by
  intro w i j hw h
  have hperiod : 32 / Nat.gcd 32 w ∣ 32 := Nat.div_dvd_of_dvd (Nat.gcd_dvd_left 32 w)
  have hbit : (offset w i).2 = (offset w j).2 :=
    offset_bit_eq_of_modEq (h.elim id fun hlane => Nat.ModEq.of_dvd hperiod hlane)
  exact ⟨by rw [Bool.eq_iff_iff, straddles_iff i hw, straddles_iff j hw, hbit], hbit⟩

/-! The shift and the parts of a field (R74, R75). -/

/-- `MASK(m)` is `2^m - 1` (R91). -/
theorem mask_eq_ofNat {m : Nat} (hm : m ≤ 31) : mask m = BitVec.ofNat 32 (2 ^ m - 1) :=
  BitVec.eq_of_getLsbD_eq fun k hk => by
    rw [mask_getLsbD m k hm, BitVec.getLsbD_ofNat, Nat.testBit_two_pow_sub_one, decide_eq_true hk, Bool.true_and]

/-- Settles O19: a field that does not straddle is cut out of its word by `EXTRACT`. -/
theorem shiftAlignsAWholeField : Obligations.ShiftAlignsAWholeField := by
  intro buf w i hw h
  have hfit := (straddles_eq_false_iff i hw).1 h
  have hpos : 1 ≤ w := hw.1
  refine ⟨rfl, by rw [fieldShift]; omega, ?_⟩
  rw [← extract_eq_readBits buf hw hfit, extract, mask_eq_ofNat hw.2]

/-- Settles O20: a straddling field starts before its first word's end and goes on after it. -/
theorem partWidthsOfAStraddlingField : Obligations.PartWidthsOfAStraddlingField := by
  intro w i hw h
  have hcross := (straddles_iff i hw).1 h
  have hbit := offset_bit_lt w i
  have hhi : w ≤ 31 := hw.2
  rw [highBits, lowBits]
  omega

/-! Batches of whole words (R76). -/

/-- 32 fields of `w` bits fill `w` words (R76). -/
theorem wordsPerBatch_eq (w : Nat) : wordsPerBatch w = w := by
  rw [wordsPerBatch, Config.batch]
  omega

/-- A batch's last field ends its last word (R76). -/
theorem offset_last_lane {w : Nat} (k : Nat) (hw : legalWidth w) : (offset w (32 * k + 31)).2 + w = 32 := by
  obtain ⟨hlo, hhi⟩ : 1 ≤ w ∧ w ≤ 31 := hw
  rw [offset, Nat.add_mul, Nat.mul_assoc]
  omega

/-- Settles O21: the bits of a batch run from `32 * (k * w)` to the bit before `32 * ((k + 1) * w)`. -/
theorem batchesAreWholeWords : Obligations.BatchesAreWholeWords := by
  intro w k hw
  have hend : 0 < (k + 1) * w := Nat.mul_pos k.succ_pos hw.1
  rw [offset, Nat.mul_assoc, Nat.mul_assoc, Nat.mul_div_cancel_left _ (by decide), Nat.mul_mod_right]
  exact ⟨wordsPerBatch_eq w, rfl, by omega, by omega,
    (straddles_eq_false_iff _ hw).2 (offset_last_lane k hw).le⟩

/-! The plan of a batch (R77). -/

/-- The word and shift of a lane whose field lies in one word, as numbers: neither is cut by its five bits. -/
theorem lanePlan_toNat_of_le {w l : Nat} (hw : legalWidth w) (hl : l < 32) (h : (offset w l).2 + w ≤ 32) :
    (lanePlan w l).word.toNat = (offset w l).1 ∧ (lanePlan w l).shift.toNat = 32 - (offset w l).2 - w := by
  have hpos : 1 ≤ w := hw.1
  have hword := offset_word_le hw hl
  rw [lanePlan_of_le h]
  exact ⟨toNat_planField (by omega), toNat_planField (by rw [fieldShift]; omega)⟩

/-- A lane is in the plan's straddle set exactly when its field straddles. -/
theorem lanePlan_straddle_eq {w : Nat} (l : Nat) (hw : legalWidth w) : (lanePlan w l).straddle = straddles w l := by
  rw [Bool.eq_iff_iff, lanePlan_straddle_iff, straddles_iff l hw]

/-- Settles O22, by whether the lane's field crosses the end of its first word. -/
theorem layoutFillsThePlan : Obligations.LayoutFillsThePlan := by
  intro w hw
  have hwidth : w < 32 := Nat.lt_succ_of_le hw.2
  refine ⟨toNat_planField hwidth, rfl, toNat_planField ((wordsPerBatch_eq w).trans_lt hwidth), fun l => ?_⟩
  simp only [layout_lanes_getElem, lanePlan_straddle_eq _ hw]
  split
  next h =>
    obtain ⟨hword, hshift⟩ := lanePlan_toNat_of_le hw l.isLt h
    exact ⟨hword, hshift, (straddles_eq_false_iff l hw).2 h⟩
  next h =>
    have hcross := Nat.not_le.1 h
    obtain ⟨hword, hshift, hw0, hw1, hhb, hlb⟩ := lanePlan_toNat_of_lt hw l.isLt hcross
    have hlow : 32 - lowBits w l = 64 - (offset w l).2 - w := by rw [lowBits]; omega
    exact ⟨(straddles_iff l hw).2 hcross, hw0, hw1, hhb, hlb, hword, hshift.trans hlow⟩

/-! Widths that divide the word (R78). -/

/-- The degenerate widths are the legal divisors of 32. -/
theorem mem_degenerateWidths_iff {w : Nat} (hw : legalWidth w) : w ∈ [1, 2, 4, 8, 16] ↔ w ∣ 32 := by
  have hall : ∀ w < 32, w ∈ [1, 2, 4, 8, 16] ↔ w ∣ 32 := by decide
  exact hall w (Nat.lt_succ_of_le hw.2)

/-- Where the width divides 32, the bits before a field and the bits from its start on are multiples of the width,
so the field fits (R78). -/
theorem offset_bit_add_width_le_of_dvd {w : Nat} (i : Nat) (h : w ∣ 32) : (offset w i).2 + w ≤ 32 := by
  have hbit := offset_bit_lt w i
  have hbefore : w ∣ (offset w i).2 := (Nat.dvd_mod_iff h).2 (Nat.dvd_mul_left w i)
  have hfrom : w ≤ 32 - (offset w i).2 := Nat.le_of_dvd (by omega) (Nat.dvd_sub h hbefore)
  omega

/-- Where the width does not divide 32, the first field that does not lie in word 0 starts there (R78). -/
theorem straddles_div_width_of_not_dvd {w : Nat} (hw : legalWidth w) (h : ¬ w ∣ 32) :
    straddles w (32 / w) = true := by
  have hrest : 0 < 32 % w := Nat.pos_of_ne_zero fun h0 => h (Nat.dvd_of_mod_eq_zero h0)
  have hlt : 32 % w < w := Nat.mod_lt _ hw.1
  have hsplit : 32 / w * w + 32 % w = 32 := Nat.div_add_mod' 32 w
  rw [straddles_iff _ hw, offset]
  omega

/-- Settles O24: a degenerate width divides 32; any other has a field across the end of word 0, in a lane since the
width is not 1. -/
theorem degenerateWidthsNeverStraddle : Obligations.DegenerateWidthsNeverStraddle := by
  intro w hw
  simp only [mem_degenerateWidths_iff hw, layout_lanes_getElem, lanePlan_straddle_eq _ hw]
  constructor
  · intro hdvd i
    have hfit (i : Nat) : (offset w i).2 + w ≤ 32 := offset_bit_add_width_le_of_dvd i hdvd
    refine ⟨(straddles_eq_false_iff i hw).2 (hfit i), fun l => ?_⟩
    obtain ⟨hword, hshift⟩ := lanePlan_toNat_of_le hw l.isLt (hfit l)
    exact ⟨(straddles_eq_false_iff l hw).2 (hfit l), hword, hshift.trans (Nat.sub_right_comm 32 _ w)⟩
  · intro hdvd
    have hone : 1 < w := lt_of_le_of_ne hw.1 fun h1 => hdvd (h1 ▸ Nat.one_dvd 32)
    exact ⟨⟨32 / w, Nat.div_lt_self (by decide) hone⟩, straddles_div_width_of_not_dvd hw hdvd⟩

/-! The number of straddling lanes (R79). -/

/-- Each word boundary the first `n` fields reach lies inside a field or at the end of one (R79). -/
theorem count_straddles_add_count_dvd {w : Nat} (n : Nat) (hw : legalWidth w) :
    Nat.count (fun l => straddles w l = true) n + Nat.count (fun l => 32 ∣ (l + 1) * w) n = n * w / 32 := by
  have hlo : 1 ≤ w := hw.1
  have hhi : w ≤ 31 := hw.2
  induction n with
  | zero => simp
  | succ n ih =>
    simp only [Nat.count_succ, straddles_iff _ hw, offset, Nat.succ_mul] at ih ⊢
    split <;> split <;> omega

/-- Of the 32 fields of a batch, `gcd(32, w)` end a word (R79). -/
theorem count_dvd_eq_gcd (w : Nat) : Nat.count (fun l => 32 ∣ (l + 1) * w) 32 = Nat.gcd 32 w := by
  simp only [dvd_mul_width_iff]
  rw [Nat.count_eq_card_filter_range, Nat.card_multiples, Nat.div_div_self (Nat.gcd_dvd_left 32 w) (by decide)]

/-- Filtering the lanes keeps as many as the numbers below 32 that pass. -/
theorem length_filter_finRange (n : Nat) (p : Nat → Bool) :
    ((List.finRange n).filter fun l : Fin n => p l).length = Nat.count (fun l => p l = true) n := by
  rw [Nat.count, ← List.map_coe_finRange_eq_range, List.countP_map, ← List.countP_eq_length_filter]
  simp [Function.comp_def]

/-- Settles O25: a batch reaches `w` word boundaries, of which `gcd(32, w)` lie at the end of a field. -/
theorem straddlingLanesAreCounted : Obligations.StraddlingLanesAreCounted := by
  intro w hw
  simp only [layout_lanes_getElem, lanePlan_straddle_eq _ hw]
  have hboundaries := count_straddles_add_count_dvd 32 hw
  rw [count_dvd_eq_gcd, Nat.mul_div_cancel_left w (by decide)] at hboundaries
  rw [length_filter_finRange 32 (straddles w)]
  omega

/-! The command LAYOUT (R81). -/

theorem layoutCheck_invalidWidth {w : Nat} (hw : ¬ legalWidth w) : layoutCheck w = .invalidWidth := if_pos hw

/-- LAYOUT with a legal width sets `PLAN` and `STATUS` (R81). -/
theorem exec_layout {w : Nat} (s : State) (hw : legalWidth w) :
    exec (.layout w) s = .next { s with plan := layout w, status := .ok } :=
  exec_of_ok ((layoutCheck_ok w).2 hw)

/-- Settles O26, by the legality of the word and of the width. -/
theorem layoutCommandWritesThePlan : Obligations.LayoutCommandWritesThePlan := by
  refine ⟨fun s cmd rest hport _ hill => step_of_illegalWord hill hport, fun w s => ⟨fun hw => ?_, fun hw => ?_⟩⟩
  · refine ⟨exec_layout s hw, fun t ht => ?_⟩
    rw [exec_layout s hw] at ht
    cases ht
    exact exec_layout _ hw
  · exact exec_of_check_eq (layoutCheck_invalidWidth hw) nofun

end Sys2Proof.Machine

/-! Proofs of the statements on the shift, mask and merge unit (41_shift_mask_merge_unit.md): its three functions as
arithmetic on naturals. -/

namespace Sys2Proof.Machine

/-- `MASK(m)` as a number (R91): for `m` in the range of the rule the subtraction does not wrap. -/
theorem mask_toNat {m : Nat} (hm : m ≤ 31) : (mask m).toNat = 2 ^ m - 1 := by
  have hpow : 2 ^ m ≤ 2 ^ 31 := Nat.pow_le_pow_right (by decide) hm
  rw [mask_eq_ofNat hm, BitVec.toNat_ofNat, Nat.mod_eq_of_lt (by omega)]

/-- `EXTRACT(x, sh, m)` as a number (R92): the shift divides, the mask keeps the remainder. -/
theorem extract_toNat (x : Word) (sh : Nat) {m : Nat} (hm : m ≤ 31) :
    (extract x sh m).toNat = x.toNat / 2 ^ sh % 2 ^ m := by
  rw [extract, BitVec.toNat_and, mask_toNat hm, Nat.and_two_pow_sub_one_eq_mod, BitVec.toNat_ushiftRight,
    Nat.shiftRight_eq_div_pow]

/-- A high part of `hb` bits above a low part of `lb` bits is a number of `hb + lb` bits. -/
theorem mul_two_pow_add_lt {a b hb lb : Nat} (ha : a < 2 ^ hb) (hlow : b < 2 ^ lb) :
    a * 2 ^ lb + b < 2 ^ (hb + lb) := by
  rw [Nat.mul_comm a, Nat.pow_add]
  exact Nat.mul_add_lt_mul_of_lt_of_lt ha hlow

/-- `MERGE(hi, lo, lb)` as a number (R93): the two parts overlap in no bit, so the OR adds, and the shift loses no
bit of the high part. -/
theorem merge_toNat {hi lo : Word} {hb lb : Nat} (hsum : hb + lb ≤ 32) (hhi : hi.toNat < 2 ^ hb)
    (hlo : lo.toNat < 2 ^ lb) : (merge hi lo lb).toNat = hi.toNat * 2 ^ lb + lo.toNat := by
  have hfit : hi.toNat * 2 ^ lb < 2 ^ 32 :=
    calc hi.toNat * 2 ^ lb ≤ hi.toNat * 2 ^ lb + lo.toNat := Nat.le_add_right _ _
      _ < 2 ^ (hb + lb) := mul_two_pow_add_lt hhi hlo
      _ ≤ 2 ^ 32 := Nat.pow_le_pow_right (by decide) hsum
  rw [merge, BitVec.toNat_or, BitVec.toNat_shiftLeft, Nat.shiftLeft_eq, Nat.mod_eq_of_lt hfit, ← Nat.shiftLeft_eq,
    ← Nat.shiftLeft_add_eq_or_of_lt hlo, Nat.shiftLeft_eq]

/-- Settles O27, function by function; the rules' ranges are what keeps each one from wrapping. -/
theorem maskExtractMergeOnValues : Obligations.MaskExtractMergeOnValues := by
  refine ⟨fun m _ hm => mask_toNat hm, fun x sh m _ _ hm => extract_toNat x sh hm, ?_⟩
  intro hi lo hb lb _ _ hsum hhi hlo
  have hval := merge_toNat (hsum.trans (by decide)) hhi hlo
  exact ⟨hval, hval ▸ mul_two_pow_add_lt hhi hlo⟩

end Sys2Proof.Machine

/-! Proof of the statement on the boundary straddler (42_boundary_straddler.md): the fix-up of a straddling field. -/

namespace Sys2Proof.Machine

/-- Settles O28: a straddling field crosses the end of its first word, and the parts joined are the `hb` and `lb`
bits of R75. -/
theorem fixupRebuildsTheField : Obligations.FixupRebuildsTheField := by
  intro buf w i hw h
  have hcross : 32 < (offset w i).2 + w := (straddles_iff i hw).1 h
  exact fixup_eq_readBits buf hw hcross

end Sys2Proof.Machine

/-! Proofs of the statements on batch unpacking (43_batch_unpack.md): the lanes of a batch, and the command
UNPACK_BATCH. -/

namespace Sys2Proof.Machine

/-! The lanes of a batch (R110, R111). -/

/-- Settles O29, by whether the lane straddles. -/
theorem unpackBatchIsExtractOrFixup : Obligations.UnpackBatchIsExtractOrFixup := fun words plan l =>
  ⟨fun h => (unpackBatch_getElem words plan l).trans (if_neg (Bool.eq_false_iff.1 h)),
    fun h => (unpackBatch_getElem words plan l).trans (if_pos h)⟩

/-- Settles O30: a lane is its field, and a field of `w` bits is below `2 ^ w`. -/
theorem unpackBatchLanesAreFields : Obligations.UnpackBatchLanesAreFields := by
  intro words w l hw
  have hfield := unpackBatch_layout_getElem words hw l
  exact ⟨hfield, hfield ▸ readBits_toNat_lt words _ (hw.2.trans (by decide))⟩

/-! The command UNPACK_BATCH (R113, R114). -/

theorem unpackBatchCheck_invalidWidth {w : Nat} (k : Nat) (s : State) (hw : ¬ legalWidth w) :
    unpackBatchCheck w k s = .invalidWidth := if_pos hw

theorem unpackBatchCheck_outputTooShort {w k : Nat} {s : State} (hw : legalWidth w)
    (hwords : (k + 1) * w ≤ s.bufLen.toNat) (h : s.outCap.toNat < (k + 1) * 32) :
    unpackBatchCheck w k s = .outputTooShort := by
  simp only [unpackBatchCheck, if_neg (not_not.2 hw), if_neg (Nat.not_lt.2 hwords), if_pos h]

/-- The values UNPACK_BATCH delivers are the lanes of its batch (R113). -/
theorem State.batchValues_getElem (s : State) (w k : Nat) (l : Fin 32) :
    (s.batchValues w k)[l]'(by simp) = (unpackBatch (batchWords s w k) (layout w))[l] := by
  simp [State.batchValues]

/-- A lane of batch `k` is what the scalar path gives for field `32 * k + l`: both are that field (R114). -/
theorem State.batchValues_getElem_eq_unpackOne (s : State) {w : Nat} (k : Nat) (hw : legalWidth w) (l : Fin 32) :
    (s.batchValues w k)[l]'(by simp) = unpackOne s.memRead w (32 * k + l) := by
  simp [s.batchValues_eq_fields k hw, fields, unpackOne_eq_readBits s.memRead _ hw]

/-- The cells of batch `k` hold the batch's values once the checks have found room for them (R113). -/
theorem outCell?_effect_unpackBatch {w k : Nat} {s : State} (hok : Instr.check (.unpackBatch w k) s = .ok)
    (l : Fin 32) :
    (Instr.effect (.unpackBatch w k) s).complete.outCell? (32 * k + l) = some ((s.batchValues w k)[l]'(by simp)) := by
  obtain ⟨-, -, hcells⟩ := (unpackBatchCheck_ok w k s).1 hok
  have hcap : 32 * k + l < s.outCap.toNat := by omega
  exact (if_pos hcap).trans (Memory.readWord?_write_same s.out (32 * k) _ l (by simp))

/-- Settles O31, check by check; when all pass, a byte of `OUT` is in one of the batch's cells or outside the
command's target. -/
theorem unpackBatchCommandWritesItsCells : Obligations.UnpackBatchCommandWritesItsCells := by
  refine ⟨fun s cmd rest hport _ hill => step_of_illegalWord hill hport,
    fun w k s => ⟨fun hw => ?_, fun hw hwords => ?_, fun hw hwords hcells => ?_, fun hw hwords hcells => ?_⟩⟩
  · exact exec_of_check_eq (unpackBatchCheck_invalidWidth k s hw) nofun
  · exact exec_of_check_eq (unpackBatchCheck_bufferTooShort hw hwords) nofun
  · exact exec_of_check_eq (unpackBatchCheck_outputTooShort hw hwords hcells) nofun
  · have hok : Instr.check (.unpackBatch w k) s = .ok := (unpackBatchCheck_ok w k s).2 ⟨hw, hwords, hcells⟩
    refine ⟨_, exec_of_ok hok, rfl, fun l => ?_, fun a ha => Instr.effect_out_read?_outside ha⟩
    rw [outCell?_effect_unpackBatch hok, State.batchValues_getElem]

/-- Settles O32: a command that ends with `OK` has passed its checks, and it leaves `BUF` as it was. -/
theorem batchCellsEqualTheOracle : Obligations.BatchCellsEqualTheOracle := by
  intro w k s t h hstatus l
  obtain ⟨hok, rfl⟩ | ⟨herr, rfl⟩ := exec_inv h
  · have hw : legalWidth w := ((unpackBatchCheck_ok w k s).1 hok).1
    have hbuf : (Instr.effect (.unpackBatch w k) s).complete.memRead = s.memRead := rfl
    rw [outCell?_effect_unpackBatch hok, s.batchValues_getElem_eq_unpackOne k hw, hbuf]
  · exact absurd hstatus herr

end Sys2Proof.Machine

/-! Proofs of the statements on the scalar unpacker (44_scalar_unpack.md): the value of `unpack_one`, the words it
reads, and the command UNPACK_ONE. -/

namespace Sys2Proof.Machine

/-! The value of `unpack_one` and the words it reads (R122, R125). -/

/-- Settles O33: shift and mask give a field that lies in one word, the fix-up one that crosses its end. -/
theorem unpackOneIsReadBits : Obligations.UnpackOneIsReadBits :=
  fun buf _ i hw => unpackOne_eq_readBits buf i hw

/-- The scalar path of a field that does not straddle (R121). -/
theorem unpackOne_of_not_straddles (buf : Nat → Word) {w i : Nat} (hw : legalWidth w) (h : straddles w i = false) :
    unpackOne buf w i = extract (buf (offset w i).1) (fieldShift w i) w :=
  if_pos ((straddles_eq_false_iff i hw).1 h)

/-- The scalar path of a straddling field (R121). -/
theorem unpackOne_of_straddles (buf : Nat → Word) {w i : Nat} (hw : legalWidth w) (h : straddles w i = true) :
    unpackOne buf w i =
      fixup buf (offset w i).1 ((offset w i).1 + 1) (highBits w i) (lowBits w i) :=
  if_neg (Nat.not_le.2 ((straddles_iff i hw).1 h))

/-- The fix-up reads its two words only (R104). -/
theorem fixup_congr {words words' : Nat → Word} {w0 w1 : Nat} (h0 : words' w0 = words w0)
    (h1 : words' w1 = words w1) (hb lb : Nat) : fixup words' w0 w1 hb lb = fixup words w0 w1 hb lb := by
  rw [fixup, fixup, h0, h1]

/-- Settles O36, by whether the field straddles. -/
theorem scalarReadsOneWordOrTwo : Obligations.ScalarReadsOneWordOrTwo := by
  intro buf buf' w i hw hfirst hsecond
  cases h : straddles w i with
  | false => rw [unpackOne_of_not_straddles buf' hw h, unpackOne_of_not_straddles buf hw h, hfirst]
  | true =>
    rw [unpackOne_of_straddles buf' hw h, unpackOne_of_straddles buf hw h]
    exact fixup_congr hfirst (hsecond h) _ _

/-! The command UNPACK_ONE (R123). -/

theorem unpackOneCheck_invalidWidth {w : Nat} (i : Nat) (s : State) (hw : ¬ legalWidth w) :
    unpackOneCheck w i s = .invalidWidth := if_pos hw

/-- UNPACK_ONE with a legal width and its field in `BUF` sets `RESULT` and `STATUS` (R123). -/
theorem exec_unpackOne {w i : Nat} {s : State} (hw : legalWidth w) (hbits : (i + 1) * w ≤ 32 * s.bufLen.toNat) :
    exec (.unpackOne w i) s = .next { s with result := unpackOne s.memRead w i, status := .ok } :=
  exec_of_ok ((unpackOneCheck_ok w i s).2 ⟨hw, hbits⟩)

/-- Settles O34, by the legality of the word, then check by check. -/
theorem unpackOneCommandWritesResult : Obligations.UnpackOneCommandWritesResult :=
  ⟨fun _ _ _ hport _ hill => step_of_illegalWord hill hport, fun _ i s =>
    ⟨fun hw => exec_of_check_eq (unpackOneCheck_invalidWidth i s hw) nofun,
      fun hw hbits => exec_of_check_eq (unpackOneCheck_bufferTooShort hw hbits) nofun, exec_unpackOne⟩⟩

/-- Settles O35: `RESULT` is what the scalar path gives, hence the field, and a field of `w` bits is below
`2 ^ w`. -/
theorem scalarResultIsTheFieldZeroExtended : Obligations.ScalarResultIsTheFieldZeroExtended := by
  intro w i s hw hbits
  have hfield : unpackOne s.memRead w i = readBits s.memRead (i * w) w := unpackOne_eq_readBits s.memRead i hw
  have hlt : (readBits s.memRead (i * w) w).toNat < 2 ^ w := readBits_toNat_lt s.memRead _ (hw.2.trans (by decide))
  exact ⟨_, exec_unpackOne hw hbits, rfl, hfield, hfield ▸ hlt⟩

end Sys2Proof.Machine

/-! Proofs of the statements on whole-buffer decode (45_decode.md): the outcomes of DECODE, and DECODE after the
canonical encoder. -/

namespace Sys2Proof.Machine

/-! The command DECODE (R130, R133, R134). -/

theorem decodeCheck_invalidWidth {w : Nat} (n : Nat) (s : State) (hw : ¬ legalWidth w) :
    decodeCheck w n s = .invalidWidth := if_pos hw

theorem decodeCheck_outputTooShort {w n : Nat} {s : State} (hw : legalWidth w)
    (hbits : n * w ≤ 32 * s.bufLen.toNat) (h : s.outCap.toNat < n) : decodeCheck w n s = .outputTooShort := by
  simp only [decodeCheck, if_neg (not_not.2 hw), if_neg (Nat.not_lt.2 hbits), if_pos h]

/-- Value `i` of those DECODE delivers is field `i` (R133). -/
theorem State.decodeValues_getElem (s : State) {w n i : Nat} (hw : legalWidth w) (hi : i < n) :
    (s.decodeValues w n)[i]'(by simpa using hi) = readBits s.memRead (i * w) w := by
  simp [s.decodeValues_eq_fields n hw, fields]

/-- The cells below `n` hold the fields once the checks have found room for them (R133). -/
theorem outCell?_effect_decode {w n i : Nat} {s : State} (hok : Instr.check (.decode w n) s = .ok) (hi : i < n) :
    (Instr.effect (.decode w n) s).complete.outCell? i = some (readBits s.memRead (i * w) w) := by
  obtain ⟨hw, -, hcells⟩ := (decodeCheck_ok w n s).1 hok
  have hcell := Memory.readWord?_write_same s.out 0 (s.decodeValues w n) i (by simpa using hi)
  rw [Nat.zero_add, s.decodeValues_getElem hw hi] at hcell
  exact (if_pos (hi.trans_le hcells)).trans hcell

/-- Settles O37, check by check; when all pass, a byte of `OUT` is in a cell below `n`, which holds its field, or
outside the command's target. -/
theorem decodeDeliversEveryField : Obligations.DecodeDeliversEveryField := by
  refine ⟨fun s cmd rest hport _ hill => step_of_illegalWord hill hport,
    fun w n s => ⟨fun hw => ?_, fun hw hbits => ?_, fun hw hbits hcells => ?_, fun hw hbits hcells => ?_⟩⟩
  · exact exec_of_check_eq (decodeCheck_invalidWidth n s hw) nofun
  · exact exec_of_check_eq (decodeCheck_bufferTooShort hw hbits) nofun
  · exact exec_of_check_eq (decodeCheck_outputTooShort hw hbits hcells) nofun
  · have hok : Instr.check (.decode w n) s = .ok := (decodeCheck_ok w n s).2 ⟨hw, hbits, hcells⟩
    refine ⟨_, exec_of_ok hok, rfl, fun i hi => ?_, fun a ha => Instr.effect_out_read?_outside (.inr ha)⟩
    have hcell := outCell?_effect_decode hok hi
    exact ⟨hcell, unpackOne_eq_readBits s.memRead i hw ▸ hcell,
      readBits_toNat_lt s.memRead _ (hw.2.trans (by decide))⟩

/-- Storing no field leaves the state as it is (R135). -/
theorem effect_decode_zero (w : Nat) (s : State) : Instr.effect (.decode w 0) s = s := by
  have hvalues : s.decodeValues w 0 = [] := List.length_eq_zero_iff.1 (s.decodeValues_length w 0)
  have hout : s.out.write (4 * 0) (bytesOfWords []) = s.out := Memory.write_nil s.out
  rw [Instr.effect, hvalues, State.memWrite, hout]

/-- Settles O38: no field needs no bit and no cell, so the width decides alone. -/
theorem decodeOfNothingOnlyReports : Obligations.DecodeOfNothingOnlyReports := by
  refine fun w s => ⟨fun hw => ?_, fun hw => exec_of_check_eq (decodeCheck_invalidWidth 0 s hw) nofun⟩
  have hok : Instr.check (.decode w 0) s = .ok := (decodeCheck_ok w 0 s).2 ⟨hw, by omega, Nat.zero_le _⟩
  rw [exec_of_ok hok, effect_decode_zero]
  rfl

/-! DECODE after the canonical encoder (R51, R138). -/

/-- Bits shifted in one after the other from the low end stand in the word with the last one lowest. -/
theorem foldl_shiftIn_getLsbD (f : Nat → Bool) {n : Nat} (hn : n ≤ 32) (k : Nat) :
    ((List.range n).foldl (fun (acc : Word) q => (acc <<< 1) ||| BitVec.setWidth 32 (BitVec.ofBool (f q)))
      0#32).getLsbD k = (decide (k < n) && f (n - 1 - k)) := by
  induction n generalizing k with
  | zero => simp
  | succ n ih =>
    rw [List.range_succ, List.foldl_append, List.foldl_cons, List.foldl_nil, BitVec.getLsbD_or,
      BitVec.getLsbD_shiftLeft, ih (by omega)]
    cases k with
    | zero => simp
    | succ k =>
      have hidx : n - 1 - k = n - (k + 1) := by omega
      by_cases h : k < n
      · have hk : k + 1 < 32 := by omega
        simp [h, hk, hidx]
      · simp [h]

/-- Bit `t` of value `i` is bit `i * w + t` of the packed stream, most significant first (R51). -/
theorem packedStream_getD {w t : Nat} (ht : t < w) (vs : List Word) {i : Nat} (hi : i < vs.length) :
    (packedStream w vs).getD (i * w + t) false = vs[i].getLsbD (w - 1 - t) := by
  induction vs generalizing i with
  | nil => exact absurd hi (Nat.not_lt_zero i)
  | cons v vs ih =>
    have hlen : (fieldBits w v).length = w := by simp [fieldBits]
    rw [packedStream, List.flatMap_cons]
    cases i with
    | zero =>
      rw [List.getD_append _ _ _ _ (by omega)]
      simp [fieldBits, ht]
    | succ i =>
      have hidx : (i + 1) * w + t - (fieldBits w v).length = i * w + t := by rw [hlen, Nat.succ_mul]; omega
      rw [List.getD_append_right _ _ _ _ (by rw [hlen, Nat.succ_mul]; omega), hidx]
      exact ih (Nat.lt_of_succ_lt_succ hi)

theorem pack_length (w : Nat) (vs : List Word) : (pack w vs).length = (vs.length * w + 31) / 32 := by
  simp [pack]

/-- A buffer that begins with `pack(v, w)` has the packed stream's bits, up to the stream's end (R50, R51). -/
theorem streamBool_of_pack {buf : Nat → Word} {w : Nat} {vs : List Word}
    (hbuf : ∀ (j : Nat) (h : j < (pack w vs).length), buf j = (pack w vs)[j]) {p : Nat} (hp : p < vs.length * w) :
    streamBool buf p = (packedStream w vs).getD p false := by
  have hword : buf (p / 32) = packedWord w vs (p / 32) := by
    rw [hbuf (p / 32) (by rw [pack_length]; omega)]
    simp [pack]
  have hbit : 31 - p % 32 < 32 := by omega
  have hpos : 32 * (p / 32) + (32 - 1 - (31 - p % 32)) = p := by omega
  rw [streamBool, hword, packedWord, foldl_shiftIn_getLsbD _ le_rfl, decide_eq_true hbit, Bool.true_and, hpos]

/-- `read_bits` gives value `i` back from a buffer that begins with `pack(v, w)` (R51, R138). -/
theorem readBits_of_pack {buf : Nat → Word} {w : Nat} {vs : List Word} (hw : w ≤ 32)
    (hfit : ∀ v ∈ vs, v.toNat < 2 ^ w) (hbuf : ∀ (j : Nat) (h : j < (pack w vs).length), buf j = (pack w vs)[j])
    {i : Nat} (hi : i < vs.length) : readBits buf (i * w) w = vs[i] := by
  refine BitVec.eq_of_getLsbD_eq fun k _ => ?_
  rw [readBits_getLsbD _ _ _ _ hw]
  rcases Nat.lt_or_ge k w with hk | hk
  · have ht : w - 1 - k < w := by omega
    have hend : (i + 1) * w ≤ vs.length * w := Nat.mul_le_mul_right w hi
    have hp : i * w + (w - 1 - k) < vs.length * w := by rw [Nat.succ_mul] at hend; omega
    have hbit : w - 1 - (w - 1 - k) = k := by omega
    rw [streamBool_of_pack hbuf hp, packedStream_getD ht vs hi, hbit, decide_eq_true hk, Bool.true_and]
  · have hlt : vs[i].toNat < 2 ^ k := (hfit _ (List.getElem_mem hi)).trans_le (Nat.pow_le_pow_right (by decide) hk)
    rw [BitVec.getLsbD, Nat.testBit_lt_two_pow hlt, decide_eq_false (Nat.not_lt.2 hk), Bool.false_and]

/-- Settles O39: the packed words hold every bit the checks ask for, and a cell's field is the packed value. -/
theorem decodeOfPackIsTheValues : Obligations.DecodeOfPackIsTheValues := by
  intro w vs s hw hfit hbuf hlen hcells
  have hbits : vs.length * w ≤ 32 * s.bufLen.toNat := by rw [pack_length] at hlen; omega
  have hok : Instr.check (.decode w vs.length) s = .ok := (decodeCheck_ok _ _ s).2 ⟨hw, hbits, hcells⟩
  refine ⟨_, exec_of_ok hok, rfl, fun i hi => ?_⟩
  rw [outCell?_effect_decode hok hi, readBits_of_pack (hw.2.trans (by decide)) hfit hbuf hi]

end Sys2Proof.Machine

/-! Proofs of the statements on exceptions (60_exceptions.md): the status a command reports, what an error leaves, and
the idle block. -/

namespace Sys2Proof.Machine

/-! The status a command reports (R141 to R145). -/

/-- A width is illegal exactly when it is 0 or at least 32 (R141). -/
theorem not_legalWidth_iff (w : Nat) : ¬ legalWidth w ↔ w = 0 ∨ 32 ≤ w := by
  simp only [legalWidth, Config.widthMin, Config.widthMax]
  omega

/-- A command reports what its checks found. -/
theorem exec_status {i : Instr} {s t : State} (h : exec i s = .next t) : t.status = Instr.check i s := by
  obtain ⟨hok, rfl⟩ | ⟨-, rfl⟩ := exec_inv h
  · exact hok.symm
  · rfl

/-- The checks of every command as one chain in the order of R145: the width, then the bits of `BUF` (R142), then the
cells of `OUT` (R143). -/
theorem Instr.check_eq_chain (i : Instr) (s : State) :
    Instr.check i s =
      if i.width = 0 ∨ 32 ≤ i.width then .invalidWidth
      else if i.op = 2 ∧ (i.arg + 1) * i.width > 32 * s.bufLen.toNat ∨
          i.op = 3 ∧ (i.arg + 1) * i.width > s.bufLen.toNat ∨
          i.op = 4 ∧ i.arg * i.width > 32 * s.bufLen.toNat then .bufferTooShort
      else if i.op = 3 ∧ (i.arg + 1) * 32 > s.outCap.toNat ∨ i.op = 4 ∧ i.arg > s.outCap.toNat then
        .outputTooShort
      else .ok := by
  cases i with
  | layout w => simp [Instr.op, Instr.width, Instr.check, layoutCheck, ← not_legalWidth_iff]
  | unpackOne w f => simp [Instr.op, Instr.width, Instr.arg, Instr.check, unpackOneCheck, ← not_legalWidth_iff]
  | unpackBatch w k => simp [Instr.op, Instr.width, Instr.arg, Instr.check, unpackBatchCheck, ← not_legalWidth_iff]
  | decode w n => simp [Instr.op, Instr.width, Instr.arg, Instr.check, decodeCheck, ← not_legalWidth_iff]

/-- Settles O40, by the legality of the word: the operands of a legal one are its fields, and its command reports what
the chain of checks finds. -/
theorem firstFailingCheckIsReported : Obligations.FirstFailingCheckIsReported := by
  intro s t cmd rest hport hstep
  by_cases hill : IllegalWord cmd
  · rw [step_of_illegalWord hill hport] at hstep
    cases hstep
    exact (if_pos hill).symm
  · obtain ⟨i, hi⟩ := (exists_decodeWord_ok_iff cmd).2 hill
    obtain ⟨-, hop, hwidth, harg⟩ := (decodeWord_ok_iff cmd i).1 hi
    rw [step_event hport, runEvent, runCommand_ok hi] at hstep
    rw [exec_status hstep, Instr.check_eq_chain, if_neg hill, hop, hwidth, harg]
    rfl

/-! What an error leaves (R146 to R148). -/

/-- A command that ends in an error has raised it and done nothing else (R146). -/
theorem exec_eq_raise {i : Instr} {s t : State} (h : exec i s = .next t) (herr : t.status ≠ .ok) :
    Instr.check i s ≠ .ok ∧ t = s.raise t.status := by
  obtain ⟨-, rfl⟩ | ⟨hcheck, rfl⟩ := exec_inv h
  · exact absurd rfl herr
  · exact ⟨hcheck, rfl⟩

/-- A command word that ends in an error has raised it, and would have raised it with any other `BUF` (R146, R147). -/
theorem runCommand_eq_raise {cmd : CmdWord} {s t : State} (h : runCommand cmd s = .next t) (herr : t.status ≠ .ok) :
    t = s.raise t.status ∧ ∀ b : Memory, runCommand cmd { s with buf := b } = .next { t with buf := b } := by
  obtain ⟨i, hi, hexec⟩ | ⟨⟨r, hr⟩, rfl⟩ := runCommand_inv h
  · obtain ⟨hcheck, ht⟩ := exec_eq_raise hexec herr
    exact ⟨ht, fun b => (runCommand_ok hi _).trans (exec_setBuf (fun hok => absurd hok hcheck) hexec)⟩
  · exact ⟨rfl, fun b => runCommand_error hr _⟩

/-- Settles O41: a step with a command word at the port runs it on the state that has taken it. -/
theorem errorsChangeOnlyStatus : Obligations.ErrorsChangeOnlyStatus := by
  intro s t cmd rest hport hstep herr
  obtain ⟨ht, hbuf⟩ := runCommand_eq_raise ((step_event hport).symm.trans hstep) herr
  exact ⟨ht, fun b => (step_event (s := { s with buf := b }) hport).trans (hbuf b)⟩

/-- No effect reads `STATUS` (R42), and a command that ends with `OK` overwrites it. -/
theorem Instr.effect_raise_complete (i : Instr) (s : State) (e : Status) :
    (Instr.effect i (s.raise e)).complete = (Instr.effect i s).complete := by
  cases i <;> rfl

/-- A command has the same outcome whatever error the last one raised (R148). -/
theorem exec_raise (i : Instr) (s : State) (e : Status) : exec i (s.raise e) = exec i s := by
  have hcheck : Instr.check i (s.raise e) = Instr.check i s := Instr.check_congr i s _ rfl rfl
  by_cases hok : Instr.check i s = .ok
  · rw [exec_of_ok hok, exec_of_ok (hcheck.trans hok), Instr.effect_raise_complete]
  · rw [exec_of_error hok, exec_of_error (hcheck ▸ hok), hcheck]
    rfl

/-- Settles O42: the failed command has raised its error and done nothing else. -/
theorem errorsLeaveNoTrace : Obligations.ErrorsLeaveNoTrace := by
  intro i j s t h herr
  obtain ⟨-, ht⟩ := exec_eq_raise h herr
  rw [ht, exec_raise]

/-! The idle block (R156). -/

/-- Settles O44, by the branch of a step for an empty port. -/
theorem idleBlockHoldsItsState : Obligations.IdleBlockHoldsItsState := by
  intro s hport
  simp only [step, hport]

end Sys2Proof.Machine

/-! Proofs of the statements on steps, reset and the host's conduct (70_reset_and_hazards.md). -/

namespace Sys2Proof.Machine

/-! A command word at the port (R165, R169). -/

/-- Settles O43: the state that has taken the word runs what the word decodes to. -/
theorem stepRunsTheDecodedCommand : Obligations.StepRunsTheDecodedCommand :=
  fun s _ rest _ hport hi => (step_event hport).trans (runCommand_ok hi (s.accept rest))

/-- Every command ends in a next state, and no command touches the port (R140). -/
theorem exists_exec_next (i : Instr) (s : State) : ∃ t, exec i s = .next t ∧ t.port = s.port := by
  by_cases hok : Instr.check i s = .ok
  · obtain ⟨-, -, -, hport, -⟩ := Instr.effect_frame i s
    exact ⟨_, exec_of_ok hok, hport⟩
  · exact ⟨_, exec_of_error hok, rfl⟩

/-- Every command word, legal or not, ends in a next state with the port as it was (R169). -/
theorem exists_runCommand_next (cmd : CmdWord) (s : State) :
    ∃ t, runCommand cmd s = .next t ∧ t.port = s.port := by
  cases hd : decodeWord cmd with
  | ok i =>
    rw [runCommand_ok hd]
    exact exists_exec_next i s
  | error r => exact ⟨_, runCommand_error hd s, rfl⟩

/-- The outcome of a command word does not depend on the last status (R15). -/
theorem runCommand_raise (cmd : CmdWord) (s : State) (e : Status) : runCommand cmd (s.raise e) = runCommand cmd s := by
  cases hd : decodeWord cmd with
  | ok i => rw [runCommand_ok hd, runCommand_ok hd, exec_raise]
  | error r =>
    rw [runCommand_error hd, runCommand_error hd]
    rfl

/-- Settles O45: the word has a next state, which it reaches from every status. -/
theorem everyCommandCompletes : Obligations.EveryCommandCompletes := by
  intro s cmd rest hport
  obtain ⟨t, hrun, htaken⟩ := exists_runCommand_next cmd (s.accept rest)
  refine ⟨t, htaken, fun st => ?_⟩
  calc step (s.raise st)
      _ = runCommand cmd ((s.accept rest).raise st) := step_event (s := s.raise st) hport
      _ = .next t := (runCommand_raise cmd _ st).trans hrun

/-! Reset (R160, R161). -/

/-- Settles O46, by the event at the port. -/
theorem resetRestoresTheResetValues : Obligations.ResetRestoresTheResetValues :=
  fun _ _ hport => step_event hport

/-- An erased byte has no value. -/
theorem Memory.read?_erase_inside (m : Memory) {lo hi a : Nat} (hlo : lo ≤ a) (hhi : a < hi) :
    (m.erase lo hi).read? a = none := by
  rw [Memory.read?_erase, if_neg (by omega)]

/-- Reset during a legal command takes the values of its target cells (R161). -/
theorem resetInFlight_out {cmd : CmdWord} {i : Instr} (h : decodeWord cmd = .ok i) (s : State) :
    (resetInFlight cmd s).out = s.out.erase (4 * (Instr.target i).1) (4 * (Instr.target i).2) := by
  simp only [resetInFlight, h]

/-- No byte of the target cells has a value after a reset during the command (R161). -/
theorem resetInFlight_out_read?_target {cmd : CmdWord} {i : Instr} (h : decodeWord cmd = .ok i) (s : State) {a : Nat}
    (hlo : 4 * (Instr.target i).1 ≤ a) (hhi : a < 4 * (Instr.target i).2) :
    (resetInFlight cmd s).out.read? a = none := by
  rw [resetInFlight_out h]
  exact Memory.read?_erase_inside _ hlo hhi

/-- Settles O47: the registers are those of the reset state, and the two ranges are the target cells of DECODE and of
UNPACK_BATCH. -/
theorem resetInFlightLosesTheTargetCells : Obligations.ResetInFlightLosesTheTargetCells := by
  intro s cmd rest hport
  refine ⟨resetInFlight cmd (s.accept rest), step_event hport, rfl, rfl, rfl, rfl, rfl, rfl, ?_, ?_⟩
  · exact fun w n hi a hlt => resetInFlight_out_read?_target hi _ (Nat.zero_le a) hlt
  · exact fun w k hi a hle hlt => resetInFlight_out_read?_target hi _ hle hlt

/-! Host conduct without a meaning (R163, R164). -/

/-- A byte slice that is not whole words is refused (R35). -/
theorem hostLoadBytes_of_partialWord {bs : List Byte} (s : State) (h : bs.length % 4 ≠ 0) :
    hostLoadBytes bs s = .refused .partialWord := by
  rw [hostLoadBytes, if_pos h]

/-- A host write of `BUF` beyond the index space faults (R30). -/
theorem hostWriteBuf_of_lt {j : Nat} {ws : List Word} (s : State) (h : Config.maxUnits < j + ws.length) :
    hostWriteBuf j ws s = .fault .hostAddress := by
  rw [hostWriteBuf, if_neg (Nat.not_le.2 h)]

/-- A host write of `OUT` beyond the index space faults (R30). -/
theorem hostWriteOut_of_lt {c : Nat} {vs : List Word} (s : State) (h : Config.maxUnits < c + vs.length) :
    hostWriteOut c vs s = .fault .hostAddress := by
  rw [hostWriteOut, if_neg (Nat.not_le.2 h)]

/-- Settles O50, event by event. -/
theorem meaninglessHostConductStops : Obligations.MeaninglessHostConductStops := by
  intro s cmd bs j ws rest
  refine ⟨?touch, ?overstated, ?loadBytes, ?writeBuf, ?writeOut⟩
  case touch => exact fun hport => step_event hport
  case overstated => exact fun hport => step_event hport
  case loadBytes => exact fun hport h => (step_event hport).trans (hostLoadBytes_of_partialWord _ h)
  case writeBuf => exact fun hport h => (step_event hport).trans (hostWriteBuf_of_lt _ h)
  case writeOut => exact fun hport h => (step_event hport).trans (hostWriteOut_of_lt _ h)

end Sys2Proof.Machine


/-! Proof of the statement on the sample words (30_encoding.md, 95_test_vectors.md): why the decoder refuses a word,
one lemma per condition of R58. -/

namespace Sys2Proof

/-- A word with a reserved bit set is refused for it, whatever its other fields are (R58). -/
theorem decodeWord_of_rsvField_ne_zero {cmd : CmdWord} (hrsv : CmdWord.rsvField cmd ≠ 0) :
    decodeWord cmd = .error .reservedBits := if_pos hrsv

/-- A word of LAYOUT's row is refused for an `ARG` that is not 0 (R58). -/
theorem decodeWord_of_layout_argField_ne_zero {cmd : CmdWord} (hrsv : CmdWord.rsvField cmd = 0)
    (hop : CmdWord.opField cmd = 1) (harg : (CmdWord.argField cmd).toNat ≠ 0) :
    decodeWord cmd = .error .layoutArg := by
  rw [decodeWord, if_neg (not_not.2 hrsv), if_pos hop, if_neg harg]

/-- A word whose `OP` is none of the four codes is refused for it (R58). -/
theorem decodeWord_of_opField_reserved {cmd : CmdWord} (hrsv : CmdWord.rsvField cmd = 0)
    (hop : CmdWord.opField cmd = 0 ∨ 5 ≤ (CmdWord.opField cmd).toNat) :
    decodeWord cmd = .error .reservedOp := by
  have hne (c : BitVec 4) (hpos : c ≠ 0) (hle : c.toNat ≤ 4) : CmdWord.opField cmd ≠ c := by
    rintro rfl
    exact hop.elim hpos fun h => absurd h (by omega)
  rw [decodeWord, if_neg (not_not.2 hrsv), if_neg (hne 1 (by decide) (by decide)),
    if_neg (hne 2 (by decide) (by decide)), if_neg (hne 3 (by decide) (by decide)),
    if_neg (hne 4 (by decide) (by decide))]

end Sys2Proof

namespace Sys2Proof.Machine

/-- Settles O16: the four fields of each legal word are those of its command, and each illegal word meets one
condition of R58. -/
theorem sampleWordsDecode : Obligations.SampleWordsDecode := by
  refine ⟨?layout, ?unpackOne, ?unpackBatch, ?decode, ?illegalWidth, ?reservedOp, ?reservedBits, ?layoutArg⟩
  case reservedOp => exact decodeWord_of_opField_reserved (by decide) (.inl (by decide))
  case reservedBits => exact decodeWord_of_rsvField_ne_zero (by decide)
  case layoutArg => exact decodeWord_of_layout_argField_ne_zero (by decide) (by decide) (by decide)
  all_goals exact (decodeWord_ok_iff _ _).2 (by decide)

end Sys2Proof.Machine
